-- ==== Sys2Proof/Word.lean ====
section
/-! DEFINITION. The words of the PCE: bytes, register words, window offsets and byte sequences (R11, R12). -/

namespace Sys2Proof

/-- An 8-bit unsigned value (R11). -/
abbrev Byte := BitVec 8

/-- A register value or a bus datum: an unsigned 32-bit word (R11). -/
abbrev Word := BitVec 32

/-- A byte offset from PCE_BASE: 18 bits, 0x00000 to 0x3FFFF (R60). -/
abbrev Offset := BitVec 18

/-- A finite sequence of bytes, first byte first (R12). -/
abbrev Bytes := List Byte

end Sys2Proof
end

