-- ==== Sys2Proof/Syntax.lean ====
section
/-! DEFINITION. The instructions of the PCE: the eight rows of the opcode map (R96), each a command word written to CTRL.
`irqEn` is bit 4 of the word (R94); where a row leaves MODE open, `mode` is bits 3:2 (R93). The ignored bits 31:5 select
nothing (R94) and are no operand. -/

namespace Sys2Proof

/-- One command (R96). -/
inductive Instr where
  /-- NOP: CMD 0, any MODE (R200) -/
  | nop (mode : BitVec 2) (irqEn : Bool)
  /-- ENC.CBC: CMD 1, MODE 0 (R161) -/
  | encCbc (irqEn : Bool)
  /-- ENC.ECB: CMD 1, MODE 1 (R162) -/
  | encEcb (irqEn : Bool)
  /-- ENC.RSV: CMD 1, MODE 2 or 3 (R163) -/
  | encRsv (mode : BitVec 2) (irqEn : Bool)
  /-- DEC.CBC: CMD 2, MODE 0 (R181) -/
  | decCbc (irqEn : Bool)
  /-- DEC.ECB: CMD 2, MODE 1 (R182) -/
  | decEcb (irqEn : Bool)
  /-- DEC.RSV: CMD 2, MODE 2 or 3 (R183) -/
  | decRsv (mode : BitVec 2) (irqEn : Bool)
  /-- ZEROIZE: CMD 3, any MODE (R201) -/
  | zeroize (mode : BitVec 2) (irqEn : Bool)
deriving DecidableEq, Repr

end Sys2Proof
end

