-- ==== Sys2Proof/WellFormed.lean ====
section
/-! DEFINITION. Which instruction terms stand for a command word: the reserved rows carry a reserved MODE (R96). -/

namespace Sys2Proof

/-- MODE 2 or 3, the reserved values (R23, R91). -/
def reservedMode (mode : BitVec 2) : Bool := mode == 2 || mode == 3

/-- ENC.RSV and DEC.RSV have MODE 2 or 3 (R96); every other row takes each value of its operands. -/
def Instr.wellFormed : Instr → Bool
  | .nop _ _ => true
  | .encCbc _ => true
  | .encEcb _ => true
  | .encRsv m _ => reservedMode m
  | .decCbc _ => true
  | .decEcb _ => true
  | .decRsv m _ => reservedMode m
  | .zeroize _ _ => true

end Sys2Proof
end

