-- ==== Sys2Proof/Decode.lean ====
section
/-! DEFINITION. Decoding and encoding of the command word (R90 to R98), and the opcode map as the spec tabulates it
(R96). -/

namespace Sys2Proof

/-- CMD, bits 1:0 (R92). -/
def cmdField (w : Word) : BitVec 2 := w.extractLsb' 0 2

/-- MODE, bits 3:2 (R93). -/
def modeField (w : Word) : BitVec 2 := w.extractLsb' 2 2

/-- IRQ_EN, bit 4 (R94). -/
def irqField (w : Word) : Bool := w.getLsbD 4

/-- The instruction a command word is: every word is exactly one (R96, R97). -/
def decodeWord (w : Word) : Instr :=
  if cmdField w = 0 then .nop (modeField w) (irqField w)
  else if cmdField w = 1 then
    if modeField w = 0 then .encCbc (irqField w)
    else if modeField w = 1 then .encEcb (irqField w)
    else .encRsv (modeField w) (irqField w)
  else if cmdField w = 2 then
    if modeField w = 0 then .decCbc (irqField w)
    else if modeField w = 1 then .decEcb (irqField w)
    else .decRsv (modeField w) (irqField w)
  else .zeroize (modeField w) (irqField w)

/-- The word with the given fields and bits 31:5 zero (R91). -/
def commandWord (cmd mode : BitVec 2) (irqEn : Bool) : Word :=
  cmd.zeroExtend 32 ||| (mode.zeroExtend 32 <<< 2) ||| (if irqEn then 0x10 else 0)

/-- The canonical word of an instruction (R96), with bit 4 set for `,irq` (R99). -/
def encodeWord : Instr → Word
  | .nop m irq => commandWord 0 m irq
  | .encCbc irq => commandWord 1 0 irq
  | .encEcb irq => commandWord 1 1 irq
  | .encRsv m irq => commandWord 1 m irq
  | .decCbc irq => commandWord 2 0 irq
  | .decEcb irq => commandWord 2 1 irq
  | .decRsv m irq => commandWord 2 m irq
  | .zeroize m irq => commandWord 3 m irq

/-- Why bytes are no instruction: fewer than the four bytes of a command word (R90). No word is illegal (R97). -/
inductive DecodeError where
  | truncated
deriving DecidableEq, Repr

/-- The word whose bytes, least significant first, are the four given (R67). -/
def wordOfBytes (b0 b1 b2 b3 : Byte) : Word := b3 ++ b2 ++ b1 ++ b0

/-- Byte `i` of a word, bits `[8i+7 : 8i]` (R67). -/
def wordByte (w : Word) (i : Nat) : Byte := w.extractLsb' (8 * i) 8

/-- The four bytes of a word, least significant first (R67). -/
def wordBytes (w : Word) : Bytes := [wordByte w 0, wordByte w 1, wordByte w 2, wordByte w 3]

/-- Decode the command word at the head of a byte stream, little-endian, and give the bytes after it. The PCE itself
sees whole words (R90); the byte stream is the model's view of them (log entry 8). -/
def decode : Bytes → Except DecodeError (Instr × Bytes)
  | b0 :: b1 :: b2 :: b3 :: rest => .ok (decodeWord (wordOfBytes b0 b1 b2 b3), rest)
  | _ => .error .truncated

/-- The bytes of an instruction's canonical word. -/
def encode (i : Instr) : Bytes := wordBytes (encodeWord i)

/-- The instruction the decoder reads from a word of `nbits` bits, the bits above them zero. -/
def decodeTableWord (nbits w : Nat) : Option Instr :=
  match decode (wordBytes (BitVec.ofNat 32 (w % 2 ^ nbits))) with
  | .ok (i, []) => some i
  | _ => none

/-- One row of the opcode map (R96). -/
structure OpcodeRow where
  mnemonic : String
  pattern : Word
  mask : Word
deriving DecidableEq, Repr

/-- A word matches a row when `(w & mask) == match` (R96). -/
def OpcodeRow.covers (r : OpcodeRow) (w : Word) : Bool := w &&& r.mask == r.pattern

/-- The opcode map as R96 tabulates it. -/
def opcodeRows : List OpcodeRow :=
  [⟨"NOP", 0x0, 0x3⟩, ⟨"ENC.CBC", 0x1, 0xF⟩, ⟨"ENC.ECB", 0x5, 0xF⟩, ⟨"ENC.RSV", 0x9, 0xB⟩,
   ⟨"DEC.CBC", 0x2, 0xF⟩, ⟨"DEC.ECB", 0x6, 0xF⟩, ⟨"DEC.RSV", 0xA, 0xB⟩, ⟨"ZEROIZE", 0x3, 0x3⟩]

/-- The mnemonic of an instruction (R96). -/
def Instr.mnemonic : Instr → String
  | .nop _ _ => "NOP"
  | .encCbc _ => "ENC.CBC"
  | .encEcb _ => "ENC.ECB"
  | .encRsv _ _ => "ENC.RSV"
  | .decCbc _ => "DEC.CBC"
  | .decEcb _ => "DEC.ECB"
  | .decRsv _ _ => "DEC.RSV"
  | .zeroize _ _ => "ZEROIZE"

end Sys2Proof
end

