-- ==== Sys2Proof/Config.lean ====
section
/-! DEFINITION. What an instance of the PCE fixes (R9, R37), what the bus answers (R60), and the free values: what the
spec leaves open and this model does not choose. -/

namespace Sys2Proof

/-- What the bus answers to one access (R60): read data, okay to a write, or BusError with the offset (R240). -/
inductive Response where
  | data (v : Word)
  | okay
  | busError (off : Offset)
deriving DecidableEq, Repr

end Sys2Proof

namespace Sys2Proof.Config

/-- `BLOCK`, the cipher block size in bytes (R2, R9); `IV_BYTES` is the same number. -/
def block : Nat := 16

/-- `KEY_MAX`, the bytes of key storage (R9). -/
def keyMax : Nat := 32

/-- The bytes of the window the PCE decodes: 18 bits of offset (R9, R71). -/
def windowBytes : Nat := 0x40000

/-- The offset of the IN window (R62). -/
def inWindow : Nat := 0x10000

/-- The offset of the OUT window (R62). -/
def outWindow : Nat := 0x20000

/-- The parameters of an instance (R9, R37), with the spec's defaults; PCE_BASE is OPEN in the spec, its default here is
a DESIGN CHOICE (log entry 3). HOST_ORDERING is no field: the arrival order is the schedule (R75). -/
structure Params where
  /-- `IN_CAP`, the bytes of the input buffer -/
  inCap : Nat := 4096
  /-- `PCE_BASE`, the bus address of offset 0 -/
  pceBase : Nat := 0
  /-- `RNG_MAY_FAIL`, whether the entropy source can report failure -/
  rngMayFail : Bool := true
deriving DecidableEq, Repr

/-- `OUT_CAP = IN_CAP + 32` (R9, R32). -/
def Params.outCap (p : Params) : Nat := p.inCap + 32

/-- The ranges R9 gives the parameters. -/
abbrev Params.Legal (p : Params) : Prop :=
  p.inCap % 16 = 0 ∧ 32 ≤ p.inCap ∧ p.inCap ≤ 65504 ∧ p.pceBase % windowBytes = 0

/-- FREE VALUE: the byte an unlisted place of a buffer holds, by how many resets there were and the byte's window
offset: unknown, stable until written (R36, U2, U3; log entry 2). -/
opaque unspecifiedByte : Nat → Nat → Byte

/-- FREE VALUE: the 16 bytes the entropy source gives where no answer of it is listed (R246, U4; log entry 5). -/
opaque freeIv : Nat → Vector Byte 16

/-- FREE VALUE: whether an unlisted answer of the entropy source is a failure, where it may fail (U5; log entry 5). -/
opaque freeFail : Nat → Bool

/-- FREE VALUE: what the bus answers, if anything, to an access made while reset is asserted (R260; log entry 6). -/
opaque responseInReset : Nat → Option Response

end Sys2Proof.Config
end

