-- ==== Sys2Proof/Machine/State.lean ====
section
/-! DEFINITION. The state of the PCE (R38), the configuration it carries, the events at its ports, and its state after
reset (R36). -/

namespace Sys2Proof.Machine

/-- The commands a job can be (R33). -/
inductive Cmd where
  | encrypt
  | decrypt
  | zeroize
deriving DecidableEq, Repr

/-- What the JOB latch holds of an accepted START (R33). -/
structure Job where
  cmd : Cmd
  mode : BitVec 2
deriving DecidableEq, Repr

/-- The error kinds a job can end with (R14, R221 to R225). -/
inductive ErrorKind where
  | invalidKey
  | malformedEnvelope
  | padding
  | cipher
  | length
deriving DecidableEq, Repr

/-- The outcome of a job (R14). -/
inductive JobResult where
  | ok (out : Bytes)
  | err (kind : ErrorKind)
deriving DecidableEq, Repr

/-- An answer of the entropy source (R13, R246). -/
inductive Draw where
  | iv (bytes : Vector Byte 16)
  | fail
deriving DecidableEq, Repr

/-- An event at the PCE's ports or a turn of its engine: what the agents of R10 do, in the order the PCE receives it. -/
inductive Input where
  /-- a bus access at a bus address, of `size` bytes, with the write data of a write (R60) -/
  | bus (addr size : Nat) (write : Bool) (wdata : Word)
  /-- the engine is scheduled (R152) -/
  | engine
  /-- the reset input takes a level (R260) -/
  | reset (level : Bool)
deriving DecidableEq, Repr

/-- The bytes of a buffer that are known: (index, byte) pairs, indexes strictly rising. An unlisted index is
UNSPECIFIED (R36): it holds no known byte, so no entry can repeat it. -/
abbrev Memory := List Host.Cell

/-- The canonical form of a memory. -/
abbrev Memory.wf (m : Memory) : Prop := m.Pairwise fun x y => x.1 < y.1

/-- The PCE's state (R38), the parameters of the instance (R37), and the model's own fields for what comes and goes at
the ports. -/
structure State where
  /-- CTRL.MODE (R23) -/
  mode : BitVec 2
  /-- CTRL.IRQ_EN (R23) -/
  irqEn : Bool
  /-- STATUS.DONE (R24) -/
  done : Bool
  /-- STATUS.ACC_ERR (R24) -/
  accErr : Bool
  /-- STATUS.ERR (R24) -/
  err : BitVec 4
  /-- KEY_LEN.LEN (R25) -/
  keyLen : BitVec 8
  /-- KEY0 to KEY7 (R29) -/
  key : Vector Word 8
  /-- IN_LEN (R26) -/
  inLen : Word
  /-- OUT_LEN (R27) -/
  outLen : Word
  /-- the input buffer, by byte index (R31) -/
  inbuf : Memory
  /-- the output buffer, by byte index (R32) -/
  outbuf : Memory
  /-- the pending-job latch JOB (R33) -/
  job : Option Job
  /-- the reset input is asserted (R260) -/
  resetLine : Bool
  /-- the parameters of the instance, which no step changes (R37) -/
  config : Config.Params
  /-- the model's own: the events still to arrive, in order (R73, R75) -/
  inputs : List Input
  /-- the model's own: the entropy source's answers still to come (R246) -/
  entropy : List Draw
  /-- the model's own: what the bus answered to the last access (R60) -/
  response : Option Response
  /-- the model's own: how many resets there were, the index of the unspecified bytes (R36) -/
  epoch : Nat
  /-- the model's own: the index of the next free value -/
  freeCount : Nat
deriving DecidableEq, Repr

/-- STATUS.BUSY: a job is pending (R21, R38). -/
def State.busy (s : State) : Bool := s.job.isSome

/-- The interrupt output: `irq = done ∧ irq_en` (R244). -/
def State.irq (s : State) : Bool := s.done && s.irqEn

/-- The state after reset (R36), of an instance with the spec's default parameters, with nothing at its ports. -/
def State.reset : State where
  mode := 0
  irqEn := false
  done := false
  accErr := false
  err := 0
  keyLen := 0
  key := Vector.replicate 8 0
  inLen := 0
  outLen := 0
  inbuf := []
  outbuf := []
  job := none
  resetLine := false
  config := {}
  inputs := []
  entropy := []
  response := none
  epoch := 0
  freeCount := 0

/-- Why the machine stops with a fault: never. The spec gives the PCE no event that stops it: a refused access is
answered with BusError and the machine goes on (R240), a failed job completes (R229). Nobody raises a fault, so the type
has no constructor (safe). -/
inductive Fault where
deriving DecidableEq, Repr

/-- Why an instruction has no meaning here. -/
inductive Refusal where
  /-- raised by exec's arm of an instruction this model gives no meaning (safe); no arm does: every instruction has one -/
  | notModelled (mnemonic : String)
deriving DecidableEq, Repr

end Sys2Proof.Machine
end

