-- ==== Sys2Proof/Machine/Flags.lean ====
section
/-! DEFINITION. The codes of the error kinds and the register views of the flags: CTRL and STATUS as they read (R23,
R24, R64). -/

namespace Sys2Proof.Machine

/-- The STATUS.ERR code of an error kind (R221 to R225). -/
def ErrorKind.code : ErrorKind → BitVec 4
  | .invalidKey => 1
  | .malformedEnvelope => 2
  | .padding => 3
  | .cipher => 4
  | .length => 5

/-- One bit as a word. -/
def bitWord (b : Bool) : Word := (BitVec.ofBool b).zeroExtend 32

/-- A read of CTRL: `zext_32(irq_en << 4 | mode << 2)` (R64). -/
def State.ctrlWord (s : State) : Word :=
  (bitWord s.irqEn <<< 4) ||| (s.mode.zeroExtend 32 <<< 2)

/-- A read of STATUS: `zext_32(err << 4 | acc_err << 2 | done << 1 | busy)` (R64). -/
def State.statusWord (s : State) : Word :=
  (s.err.zeroExtend 32 <<< 4) ||| (bitWord s.accErr <<< 2) ||| (bitWord s.done <<< 1) ||| bitWord s.busy

/-- A read of ID: MAGIC, REV and the feature bits (R22). -/
def idWord : Word := 0x5043011F

end Sys2Proof.Machine
end

