-- ==== Sys2Proof/Machine/Operands.lean ====
section
/-! DEFINITION. Operands of a job and the byte views of the stores: key bytes, input bytes, output bytes and their read
gate, lengths, and the entropy source's answer (R30 to R32, R95, R246). -/

namespace Sys2Proof.Machine

/-- The known byte at an index of a memory, none where it is unspecified. -/
def Memory.read? (m : Memory) (i : Nat) : Option Byte := m.lookup i

/-- `KEYB[i]` for i in 0..31: byte `i mod 4` of KEY word `i div 4`, little-endian (R30). -/
def State.keyByte (s : State) (i : Nat) : Byte := wordByte (s.key.toList.getD (i / 4) 0) (i % 4)

/-- `IN[i]`: the byte written there, or the unspecified byte the buffer holds (R31, R36). -/
def State.inByte (s : State) (i : Nat) : Byte :=
  (s.inbuf.read? i).getD (Config.unspecifiedByte s.epoch (Config.inWindow + i))

/-- `OUT[i]`, without the read gate (R32, R36). -/
def State.outByte (s : State) (i : Nat) : Byte :=
  (s.outbuf.read? i).getD (Config.unspecifiedByte s.epoch (Config.outWindow + i))

/-- `g(i)`: output byte `i` through the read gate (R32, R64). -/
def State.gatedOutByte (s : State) (i : Nat) : Byte :=
  if i < s.outLen.toNat then s.outByte i else 0

/-- IN window word `j` (R64). -/
def State.inWord (s : State) (j : Nat) : Word :=
  wordOfBytes (s.inByte (4 * j)) (s.inByte (4 * j + 1)) (s.inByte (4 * j + 2)) (s.inByte (4 * j + 3))

/-- OUT window word `j`, gated (R64). -/
def State.outWord (s : State) (j : Nat) : Word :=
  wordOfBytes (s.gatedOutByte (4 * j)) (s.gatedOutByte (4 * j + 1)) (s.gatedOutByte (4 * j + 2))
    (s.gatedOutByte (4 * j + 3))

/-- `b[i..j)`, the slice of the bytes at indexes i to j - 1, empty when j ≤ i (R12). -/
def slice (b : Nat → Byte) (i j : Nat) : Bytes := (List.range (j - i)).map fun n => b (i + n)

/-- The result of the last job as the host reads it: `OUT[0..OUT_LEN)` (R32). -/
def State.result (s : State) : Bytes := slice s.gatedOutByte 0 s.outLen.toNat

/-- The key of a job, `KEYB[0..key_len)` (R30, R95). -/
def State.jobKey (s : State) : Bytes := slice s.keyByte 0 s.keyLen.toNat

/-- The data of a job, `IN[0..in_len)` (R31, R95). -/
def State.jobData (s : State) : Bytes := slice s.inByte 0 s.inLen.toNat

/-- The key lengths of AES-128, AES-192 and AES-256 (R3). -/
abbrev LegalKeyLen (n : Nat) : Prop := n = 16 ∨ n = 24 ∨ n = 32

/-- The free answer of the entropy source: any 16 bytes, or failure where RNG_MAY_FAIL (R246). -/
def freeDraw (p : Config.Params) (n : Nat) : Draw :=
  if p.rngMayFail && Config.freeFail n then .fail else .iv (Config.freeIv n)

/-- The entropy source's next answer: the next one listed, or a free one. A listed failure of a source that cannot fail
is not admitted (R246): its place is taken by free bytes. -/
def State.nextDraw (s : State) : Draw :=
  match s.entropy with
  | [] => freeDraw s.config s.freeCount
  | .iv v :: _ => .iv v
  | .fail :: _ => if s.config.rngMayFail then .fail else .iv (Config.freeIv s.freeCount)

end Sys2Proof.Machine
end

