-- ==== Sys2Proof/Machine/Ops.lean ====
section
/-! DEFINITION. The named operations over the state and its memories: writing bytes, START and its refusal, completion
(the error entry of R229 is its err case), the STATUS acknowledgement (the error return of R230), BusError, reset. -/

namespace Sys2Proof.Machine

/-- The bytes `bs` listed from index `i` on. -/
def cellsFrom : Nat → Bytes → Memory
  | _, [] => []
  | i, b :: bs => (i, b) :: cellsFrom (i + 1) bs

/-- Write the bytes `bs` at the indexes from `i` on; every other index keeps its byte. -/
def Memory.store (m : Memory) (i : Nat) (bs : Bytes) : Memory :=
  m.filter (fun c => c.1 < i) ++ cellsFrom i bs ++ m.filter fun c => i + bs.length ≤ c.1

/-- A buffer of `n` bytes, each known to be 0 (R201). -/
def Memory.zeros (n : Nat) : Memory := cellsFrom 0 (List.replicate n 0)

/-- The bus's answer to the access. -/
def State.respond (r : Response) (s : State) : State := { s with response := some r }

/-- `raise BusError(off)`: an error response and no other change (R13, R240). -/
def State.raiseBusError (off : Offset) (s : State) : State := s.respond (.busError off)

/-- START: the writes of an accepted command (R150). acc_err is not changed. -/
def State.start (c : Cmd) (mode : BitVec 2) (irq : Bool) (s : State) : State :=
  { s with mode := mode, irqEn := irq, done := false, err := 0, outLen := 0, job := some ⟨c, mode⟩ }

/-- A command while busy: only IRQ_EN is written, and ACC_ERR is set (R66). -/
def State.refuseCommand (irq : Bool) (s : State) : State := { s with irqEn := irq, accErr := true }

/-- An operand write while busy: refused, ACC_ERR is set (R66, R242). -/
def State.refuseOperand (s : State) : State := { s with accErr := true }

/-- The MODE and IRQ_EN part of a CTRL write while idle (R200). -/
def State.storeCtrl (mode : BitVec 2) (irq : Bool) (s : State) : State := { s with mode := mode, irqEn := irq }

/-- The IRQ_EN part of a CTRL write, which applies busy or not (R66, R94). -/
def State.storeIrqEn (irq : Bool) (s : State) : State := { s with irqEn := irq }

/-- A CTRL write with CMD ≠ 0: START while idle (R150), refused while busy (R66); the bus answers okay. -/
def State.command (c : Cmd) (mode : BitVec 2) (irq : Bool) (s : State) : State :=
  (if s.busy then s.refuseCommand irq else s.start c mode irq).respond .okay

/-- A CTRL write with CMD = 0 (R200); the bus answers okay. -/
def State.configure (mode : BitVec 2) (irq : Bool) (s : State) : State :=
  (if s.busy then s.storeIrqEn irq else s.storeCtrl mode irq).respond .okay

/-- Completion with `ok(out)` (R154). -/
def State.finishOk (out : Bytes) (s : State) : State :=
  { s with
    outbuf := s.outbuf.store 0 out, outLen := BitVec.ofNat 32 out.length, err := 0, done := true, job := none }

/-- Completion with `err(kind)`: the error entry. Nothing else is saved (R154, R229). -/
def State.finishErr (k : ErrorKind) (s : State) : State :=
  { s with outLen := 0, err := k.code, done := true, job := none }

/-- Completion writes the outcome of the job (R154). -/
def State.complete (r : JobResult) (s : State) : State :=
  match r with
  | .ok out => s.finishOk out
  | .err k => s.finishErr k

/-- The extra writes of a ZEROIZE job: the key store, the lengths, both buffers (R201). -/
def State.clearOperands (s : State) : State :=
  { s with
    key := Vector.replicate 8 0, keyLen := 0, inLen := 0
    inbuf := Memory.zeros s.config.inCap, outbuf := Memory.zeros s.config.outCap }

/-- A write of STATUS: one clears DONE (bit 1) and ACC_ERR (bit 2), every other bit is ignored (R202). This is how
software returns from a job's error (R230). -/
def State.acknowledge (v : Word) (s : State) : State :=
  { s with done := s.done && !v.getLsbD 1, accErr := s.accErr && !v.getLsbD 2 }

/-- One request to the entropy source is answered (R246). -/
def State.consumeDraw (s : State) : State :=
  { s with entropy := s.entropy.tail, freeCount := s.freeCount + 1 }

/-- Reset is asserted: every register takes its reset value, the buffers become UNSPECIFIED, a pending job is abandoned
(R36, R260, R261). The configuration and what is still to come at the ports stay. -/
def State.assertReset (s : State) : State :=
  { State.reset with
    resetLine := true, config := s.config, inputs := s.inputs, entropy := s.entropy
    epoch := s.epoch + 1, freeCount := s.freeCount }

/-- The reset input takes a level: asserting it resets the PCE, releasing it lets the PCE run (R260). -/
def State.setResetLine (level : Bool) (s : State) : State :=
  if level then (if s.resetLine then s else s.assertReset) else { s with resetLine := false }

/-- An access made while reset is asserted changes no state of the PCE (R260); what the bus answers is a free value. -/
def State.accessInReset (s : State) : State :=
  { s with response := Config.responseInReset s.freeCount, freeCount := s.freeCount + 1 }

end Sys2Proof.Machine
end

