-- ==== Sys2Proof/Machine/Control.lean ====
section
/-! DEFINITION. The control family: NOP and ZEROIZE as they are written to CTRL (R200, R201). -/

namespace Sys2Proof.Machine

/-- NOP is written to CTRL: MODE and IRQ_EN while idle, IRQ_EN alone while busy (R200). -/
def execNop (mode : BitVec 2) (irq : Bool) (s : State) : Host.Outcome State Fault Refusal :=
  .next (s.configure mode irq)

/-- ZEROIZE is written to CTRL: accepted as a START (R201, R150). -/
def execZeroize (mode : BitVec 2) (irq : Bool) (s : State) : Host.Outcome State Fault Refusal :=
  .next (s.command .zeroize mode irq)

end Sys2Proof.Machine
end

