-- ==== Sys2Proof/Machine/Aes.lean ====
section
/-! DEFINITION. The AES block cipher of spec/40_primitives.md, rules R110 to R122: arithmetic in GF(2^8), the S-boxes,
the four round transformations and their inverses, key expansion for 16, 24 and 32 byte keys, the cipher and its
inverse. The whole core is the spec's own (it marks it as general knowledge, list G of 93_implementation_defined.md). -/

namespace Sys2Proof.Machine

/-- Multiplication by x modulo x^8 + x^4 + x^3 + x + 1 (R111). -/
def xtime (a : Byte) : Byte :=
  (a <<< 1) ^^^ (if a.getLsbD 7 then 0x1B else 0x00)

/-- `n` bits of the product: the sum of the `xtime` iterates of `a` selected by the low `n` bits of `b`. -/
def gmulBits : Nat → Byte → Byte → Byte
  | 0, _, _ => 0
  | n + 1, a, b => (if b.getLsbD 0 then a else 0) ^^^ gmulBits n (xtime a) (b >>> 1)

/-- `a • b`, multiplication in GF(2^8) (R111). -/
def gmul (a b : Byte) : Byte := gmulBits 8 a b

/-- `n` rounds of squaring `sq` and multiplying the square into `acc`. -/
def gsquares : Nat → Byte → Byte → Byte
  | 0, _, acc => acc
  | n + 1, sq, acc => gsquares n (gmul sq sq) (gmul acc (gmul sq sq))

/-- `inv(a) = a^254`, as the product a^2 • a^4 • … • a^128; it gives 0 for 0 (R111). -/
def ginv (a : Byte) : Byte := gsquares 7 a 1

/-- The S-box by its algebraic definition (R113): the inverse, then the affine map. -/
def sboxFormula (a : Byte) : Byte :=
  ginv a ^^^ (ginv a).rotateLeft 1 ^^^ (ginv a).rotateLeft 2 ^^^ (ginv a).rotateLeft 3 ^^^ (ginv a).rotateLeft 4 ^^^ 0x63

/-- The S-box as R113 tabulates it: row is the high nibble, column the low nibble. -/
def sboxRows : List (List Byte) :=
  [[0x63, 0x7c, 0x77, 0x7b, 0xf2, 0x6b, 0x6f, 0xc5, 0x30, 0x01, 0x67, 0x2b, 0xfe, 0xd7, 0xab, 0x76],
   [0xca, 0x82, 0xc9, 0x7d, 0xfa, 0x59, 0x47, 0xf0, 0xad, 0xd4, 0xa2, 0xaf, 0x9c, 0xa4, 0x72, 0xc0],
   [0xb7, 0xfd, 0x93, 0x26, 0x36, 0x3f, 0xf7, 0xcc, 0x34, 0xa5, 0xe5, 0xf1, 0x71, 0xd8, 0x31, 0x15],
   [0x04, 0xc7, 0x23, 0xc3, 0x18, 0x96, 0x05, 0x9a, 0x07, 0x12, 0x80, 0xe2, 0xeb, 0x27, 0xb2, 0x75],
   [0x09, 0x83, 0x2c, 0x1a, 0x1b, 0x6e, 0x5a, 0xa0, 0x52, 0x3b, 0xd6, 0xb3, 0x29, 0xe3, 0x2f, 0x84],
   [0x53, 0xd1, 0x00, 0xed, 0x20, 0xfc, 0xb1, 0x5b, 0x6a, 0xcb, 0xbe, 0x39, 0x4a, 0x4c, 0x58, 0xcf],
   [0xd0, 0xef, 0xaa, 0xfb, 0x43, 0x4d, 0x33, 0x85, 0x45, 0xf9, 0x02, 0x7f, 0x50, 0x3c, 0x9f, 0xa8],
   [0x51, 0xa3, 0x40, 0x8f, 0x92, 0x9d, 0x38, 0xf5, 0xbc, 0xb6, 0xda, 0x21, 0x10, 0xff, 0xf3, 0xd2],
   [0xcd, 0x0c, 0x13, 0xec, 0x5f, 0x97, 0x44, 0x17, 0xc4, 0xa7, 0x7e, 0x3d, 0x64, 0x5d, 0x19, 0x73],
   [0x60, 0x81, 0x4f, 0xdc, 0x22, 0x2a, 0x90, 0x88, 0x46, 0xee, 0xb8, 0x14, 0xde, 0x5e, 0x0b, 0xdb],
   [0xe0, 0x32, 0x3a, 0x0a, 0x49, 0x06, 0x24, 0x5c, 0xc2, 0xd3, 0xac, 0x62, 0x91, 0x95, 0xe4, 0x79],
   [0xe7, 0xc8, 0x37, 0x6d, 0x8d, 0xd5, 0x4e, 0xa9, 0x6c, 0x56, 0xf4, 0xea, 0x65, 0x7a, 0xae, 0x08],
   [0xba, 0x78, 0x25, 0x2e, 0x1c, 0xa6, 0xb4, 0xc6, 0xe8, 0xdd, 0x74, 0x1f, 0x4b, 0xbd, 0x8b, 0x8a],
   [0x70, 0x3e, 0xb5, 0x66, 0x48, 0x03, 0xf6, 0x0e, 0x61, 0x35, 0x57, 0xb9, 0x86, 0xc1, 0x1d, 0x9e],
   [0xe1, 0xf8, 0x98, 0x11, 0x69, 0xd9, 0x8e, 0x94, 0x9b, 0x1e, 0x87, 0xe9, 0xce, 0x55, 0x28, 0xdf],
   [0x8c, 0xa1, 0x89, 0x0d, 0xbf, 0xe6, 0x42, 0x68, 0x41, 0x99, 0x2d, 0x0f, 0xb0, 0x54, 0xbb, 0x16]]

/-- The inverse S-box as R114 tabulates it. -/
def invSboxRows : List (List Byte) :=
  [[0x52, 0x09, 0x6a, 0xd5, 0x30, 0x36, 0xa5, 0x38, 0xbf, 0x40, 0xa3, 0x9e, 0x81, 0xf3, 0xd7, 0xfb],
   [0x7c, 0xe3, 0x39, 0x82, 0x9b, 0x2f, 0xff, 0x87, 0x34, 0x8e, 0x43, 0x44, 0xc4, 0xde, 0xe9, 0xcb],
   [0x54, 0x7b, 0x94, 0x32, 0xa6, 0xc2, 0x23, 0x3d, 0xee, 0x4c, 0x95, 0x0b, 0x42, 0xfa, 0xc3, 0x4e],
   [0x08, 0x2e, 0xa1, 0x66, 0x28, 0xd9, 0x24, 0xb2, 0x76, 0x5b, 0xa2, 0x49, 0x6d, 0x8b, 0xd1, 0x25],
   [0x72, 0xf8, 0xf6, 0x64, 0x86, 0x68, 0x98, 0x16, 0xd4, 0xa4, 0x5c, 0xcc, 0x5d, 0x65, 0xb6, 0x92],
   [0x6c, 0x70, 0x48, 0x50, 0xfd, 0xed, 0xb9, 0xda, 0x5e, 0x15, 0x46, 0x57, 0xa7, 0x8d, 0x9d, 0x84],
   [0x90, 0xd8, 0xab, 0x00, 0x8c, 0xbc, 0xd3, 0x0a, 0xf7, 0xe4, 0x58, 0x05, 0xb8, 0xb3, 0x45, 0x06],
   [0xd0, 0x2c, 0x1e, 0x8f, 0xca, 0x3f, 0x0f, 0x02, 0xc1, 0xaf, 0xbd, 0x03, 0x01, 0x13, 0x8a, 0x6b],
   [0x3a, 0x91, 0x11, 0x41, 0x4f, 0x67, 0xdc, 0xea, 0x97, 0xf2, 0xcf, 0xce, 0xf0, 0xb4, 0xe6, 0x73],
   [0x96, 0xac, 0x74, 0x22, 0xe7, 0xad, 0x35, 0x85, 0xe2, 0xf9, 0x37, 0xe8, 0x1c, 0x75, 0xdf, 0x6e],
   [0x47, 0xf1, 0x1a, 0x71, 0x1d, 0x29, 0xc5, 0x89, 0x6f, 0xb7, 0x62, 0x0e, 0xaa, 0x18, 0xbe, 0x1b],
   [0xfc, 0x56, 0x3e, 0x4b, 0xc6, 0xd2, 0x79, 0x20, 0x9a, 0xdb, 0xc0, 0xfe, 0x78, 0xcd, 0x5a, 0xf4],
   [0x1f, 0xdd, 0xa8, 0x33, 0x88, 0x07, 0xc7, 0x31, 0xb1, 0x12, 0x10, 0x59, 0x27, 0x80, 0xec, 0x5f],
   [0x60, 0x51, 0x7f, 0xa9, 0x19, 0xb5, 0x4a, 0x0d, 0x2d, 0xe5, 0x7a, 0x9f, 0x93, 0xc9, 0x9c, 0xef],
   [0xa0, 0xe0, 0x3b, 0x4d, 0xae, 0x2a, 0xf5, 0xb0, 0xc8, 0xeb, 0xbb, 0x3c, 0x83, 0x53, 0x99, 0x61],
   [0x17, 0x2b, 0x04, 0x7e, 0xba, 0x77, 0xd6, 0x26, 0xe1, 0x69, 0x14, 0x63, 0x55, 0x21, 0x0c, 0x7d]]

/-- The entry of a 16 by 16 table at the high and the low nibble of `a`. -/
def tableAt (rows : List (List Byte)) (a : Byte) : Byte :=
  (rows.getD (a.toNat / 16) []).getD (a.toNat % 16) 0

/-- `S(a)` (R113). -/
def sbox (a : Byte) : Byte := tableAt sboxRows a

/-- `S⁻¹(a)` (R114). -/
def invSbox (a : Byte) : Byte := tableAt invSboxRows a

/-- Four bytes in sequence: a column of the AES state, or a word of the key schedule (R112). -/
structure Col where
  b0 : Byte
  b1 : Byte
  b2 : Byte
  b3 : Byte
deriving DecidableEq, Repr

/-- The AES state: a 4 by 4 byte array held as its four columns, `s[r][c]` is byte `r` of column `c` (R112). -/
structure Grid where
  c0 : Col
  c1 : Col
  c2 : Col
  c3 : Col
deriving DecidableEq, Repr

/-- Bytewise exclusive or of two columns (R110). -/
def Col.xor (x y : Col) : Col :=
  ⟨x.b0 ^^^ y.b0, x.b1 ^^^ y.b1, x.b2 ^^^ y.b2, x.b3 ^^^ y.b3⟩

/-- A function of a byte on every byte of a column. -/
def Col.map (f : Byte → Byte) (x : Col) : Col := ⟨f x.b0, f x.b1, f x.b2, f x.b3⟩

/-- The four bytes of `b` from index `i` on, as a column. -/
def Col.ofBytes (b : Bytes) (i : Nat) : Col :=
  ⟨b.getD i 0, b.getD (i + 1) 0, b.getD (i + 2) 0, b.getD (i + 3) 0⟩

/-- The bytes of a column in sequence. -/
def Col.bytes (x : Col) : Bytes := [x.b0, x.b1, x.b2, x.b3]

/-- A function of a column on every column. -/
def Grid.map (f : Col → Col) (s : Grid) : Grid := ⟨f s.c0, f s.c1, f s.c2, f s.c3⟩

/-- A block loaded into the state, filling the columns in turn: `s[r][c] = in[r + 4c]` (R112). -/
def loadBlock (b : Bytes) : Grid :=
  ⟨.ofBytes b 0, .ofBytes b 4, .ofBytes b 8, .ofBytes b 12⟩

/-- The state stored as a block: `out[r + 4c] = s[r][c]` (R112). -/
def storeBlock (s : Grid) : Bytes :=
  s.c0.bytes ++ s.c1.bytes ++ s.c2.bytes ++ s.c3.bytes

/-- SubBytes (R113). -/
def subBytes (s : Grid) : Grid := s.map (Col.map sbox)

/-- InvSubBytes (R114). -/
def invSubBytes (s : Grid) : Grid := s.map (Col.map invSbox)

/-- ShiftRows: row `r` rotates left by `r`, `s'[r][c] = s[r][(c + r) mod 4]` (R115). -/
def shiftRows (s : Grid) : Grid :=
  ⟨⟨s.c0.b0, s.c1.b1, s.c2.b2, s.c3.b3⟩,
   ⟨s.c1.b0, s.c2.b1, s.c3.b2, s.c0.b3⟩,
   ⟨s.c2.b0, s.c3.b1, s.c0.b2, s.c1.b3⟩,
   ⟨s.c3.b0, s.c0.b1, s.c1.b2, s.c2.b3⟩⟩

/-- InvShiftRows: row `r` rotates right by `r`, `s'[r][c] = s[r][(c - r) mod 4]` (R116). -/
def invShiftRows (s : Grid) : Grid :=
  ⟨⟨s.c0.b0, s.c3.b1, s.c2.b2, s.c1.b3⟩,
   ⟨s.c1.b0, s.c0.b1, s.c3.b2, s.c2.b3⟩,
   ⟨s.c2.b0, s.c1.b1, s.c0.b2, s.c3.b3⟩,
   ⟨s.c3.b0, s.c2.b1, s.c1.b2, s.c0.b3⟩⟩

/-- One byte of a column product: the sum of four products with the row `m0 m1 m2 m3`. -/
def mixByte (m0 m1 m2 m3 : Byte) (a0 a1 a2 a3 : Byte) : Byte :=
  gmul a0 m0 ^^^ gmul a1 m1 ^^^ gmul a2 m2 ^^^ gmul a3 m3

/-- A column times the circulant matrix whose first row is `m0 m1 m2 m3`. -/
def mixWith (m0 m1 m2 m3 : Byte) (x : Col) : Col :=
  ⟨mixByte m0 m1 m2 m3 x.b0 x.b1 x.b2 x.b3,
   mixByte m0 m1 m2 m3 x.b1 x.b2 x.b3 x.b0,
   mixByte m0 m1 m2 m3 x.b2 x.b3 x.b0 x.b1,
   mixByte m0 m1 m2 m3 x.b3 x.b0 x.b1 x.b2⟩

/-- MixColumns on one column (R117). -/
def mixColumn (x : Col) : Col := mixWith 0x02 0x03 0x01 0x01 x

/-- InvMixColumns on one column (R118). -/
def invMixColumn (x : Col) : Col := mixWith 0x0E 0x0B 0x0D 0x09 x

/-- AddRoundKey with the four schedule words `w[4·rd .. 4·rd + 4)` of a round (R119). -/
def addRoundKey (k : Grid) (s : Grid) : Grid :=
  ⟨s.c0.xor k.c0, s.c1.xor k.c1, s.c2.xor k.c2, s.c3.xor k.c3⟩

/-- `Rcon[j] = xtime^(j-1)(0x01)` (R120). -/
def rcon (j : Nat) : Byte := (List.replicate (j - 1) ()).foldl (fun a _ => xtime a) 0x01

/-- RotWord (R120). -/
def rotWord (x : Col) : Col := ⟨x.b1, x.b2, x.b3, x.b0⟩

/-- SubWord (R120). -/
def subWord (x : Col) : Col := x.map sbox

/-- The word added to `w[i - Nk]` to make `w[i]`, from `t = w[i - 1]` (R120). -/
def scheduleTerm (nk i : Nat) (t : Col) : Col :=
  if i % nk = 0 then (subWord (rotWord t)).xor ⟨rcon (i / nk), 0, 0, 0⟩
  else if nk = 8 ∧ i % nk = 4 then subWord t
  else t

/-- `n` more words of the key schedule; `acc` holds the words so far, newest first, `i` of them (R120). -/
def expandMore (nk : Nat) : Nat → Nat → List Col → List Col
  | 0, _, acc => acc
  | n + 1, i, acc =>
    expandMore nk n (i + 1) (((acc.getD (nk - 1) ⟨0, 0, 0, 0⟩).xor (scheduleTerm nk i (acc.headD ⟨0, 0, 0, 0⟩))) :: acc)

/-- `Nk = len(k)/4` (R120). -/
def keyWords (k : Bytes) : Nat := k.length / 4

/-- `Nr = Nk + 6`, the number of rounds (R120). -/
def rounds (k : Bytes) : Nat := keyWords k + 6

/-- The key schedule of `k`: `4·(Nr + 1)` words, first word first (R120). -/
def expandKey (k : Bytes) : List Col :=
  (expandMore (keyWords k) (4 * (rounds k + 1) - keyWords k) (keyWords k)
    ((List.range (keyWords k)).map fun i => Col.ofBytes k (4 * i)).reverse).reverse

/-- The schedule cut into the round keys of rounds `0 .. n`, in order. -/
def roundKeysOf : Nat → List Col → List Grid
  | n + 1, a :: b :: c :: d :: rest => ⟨a, b, c, d⟩ :: roundKeysOf n rest
  | _, _ => []

/-- The round keys `0 .. Nr` of `k`, in order. -/
def roundKeys (k : Bytes) : List Grid := roundKeysOf (rounds k + 1) (expandKey k)

/-- The rounds after the first AddRoundKey: full rounds while a key follows, then the last round without
MixColumns (R121). -/
def encRounds : List Grid → Grid → Grid
  | [], s => s
  | [k], s => addRoundKey k (shiftRows (subBytes s))
  | k :: k' :: ks, s => encRounds (k' :: ks) (addRoundKey k ((shiftRows (subBytes s)).map mixColumn))

/-- The rounds undone, in the order of the inverse cipher: the keys are those of rounds `Nr .. 1`,
the state has the key of the first already added (R122). -/
def decRounds : List Grid → Grid → Grid
  | [], s => s
  | [k], s => addRoundKey k (invSubBytes (invShiftRows s))
  | k :: k' :: ks, s => decRounds (k' :: ks) ((addRoundKey k (invSubBytes (invShiftRows s))).map invMixColumn)

/-- The cipher with the round keys given in order (R121). -/
def cipherWith (rks : List Grid) (b : Bytes) : Bytes :=
  match rks with
  | [] => b
  | k0 :: ks => storeBlock (encRounds ks (addRoundKey k0 (loadBlock b)))

/-- The inverse cipher with the round keys given in the order of use, `Nr .. 0` (R122). -/
def invCipherWith (rks : List Grid) (b : Bytes) : Bytes :=
  match rks with
  | [] => b
  | kn :: ks => storeBlock (decRounds ks (addRoundKey kn (loadBlock b)))

/-- `AES_Enc(k, b)` (R121). -/
def aesEnc (k b : Bytes) : Bytes := cipherWith (roundKeys k) b

/-- `AES_Dec(k, b)` (R122). -/
def aesDec (k b : Bytes) : Bytes := invCipherWith (roundKeys k).reverse b

end Sys2Proof.Machine
end

