-- ==== Sys2Proof/Machine/Modes.lean ====
section
/-! DEFINITION. PKCS#7 padding and the ECB and CBC modes over whole messages (R130 to R136). -/

namespace Sys2Proof.Machine

/-- The number of pad bytes for a message of `len` bytes: `16 - (len mod 16)` (R130). -/
def padLen (len : Nat) : Nat := Config.block - len % Config.block

/-- `pad(p) = p ++ rep(n, n)` (R130). -/
def pad (p : Bytes) : Bytes :=
  p ++ List.replicate (padLen p.length) (BitVec.ofNat 8 (padLen p.length))

/-- `unpad(pp)`: every pad byte is checked (R131). -/
def unpad (pp : Bytes) : JobResult :=
  let n := (pp.getLastD 0).toNat
  if n < 1 ∨ Config.block < n then .err .padding
  else if (pp.drop (pp.length - n)).all (fun b => b.toNat == n) then .ok (pp.take (pp.length - n))
  else .err .padding

/-- The first `n` 16-byte blocks of `b`. -/
def blocksOf : Nat → Bytes → List Bytes
  | 0, _ => []
  | n + 1, b => b.take Config.block :: blocksOf n (b.drop Config.block)

/-- `blocks(b)`, the 16-byte blocks of a sequence whose length is a multiple of 16, in order (R12). -/
def blocks (b : Bytes) : List Bytes := blocksOf (b.length / Config.block) b

/-- `a ⊕ b`, bytewise exclusive or (R12). -/
def xorBytes (a b : Bytes) : Bytes := List.zipWith (fun x y => x ^^^ y) a b

/-- `ECB_Enc(k, pp)` (R133). -/
def ecbEnc (k pp : Bytes) : Bytes := (blocks pp).flatMap (aesEnc k)

/-- `ECB_Dec(k, c)` (R134). -/
def ecbDec (k c : Bytes) : Bytes := (blocks c).flatMap (aesDec k)

/-- CBC encryption of the blocks that follow, `prev` being the cipher block before them (R135). -/
def cbcEncFrom (k : Bytes) : Bytes → List Bytes → Bytes
  | _, [] => []
  | prev, p :: ps => aesEnc k (xorBytes p prev) ++ cbcEncFrom k (aesEnc k (xorBytes p prev)) ps

/-- CBC decryption of the blocks that follow, `prev` being the cipher block before them (R136). -/
def cbcDecFrom (k : Bytes) : Bytes → List Bytes → Bytes
  | _, [] => []
  | prev, c :: cs => xorBytes (aesDec k c) prev ++ cbcDecFrom k c cs

/-- `CBC_Enc(k, iv, pp)`; the IV is not included (R135). -/
def cbcEnc (k iv pp : Bytes) : Bytes := cbcEncFrom k iv (blocks pp)

/-- `CBC_Dec(k, iv, c)` (R136). -/
def cbcDec (k iv c : Bytes) : Bytes := cbcDecFrom k iv (blocks c)

end Sys2Proof.Machine
end

