-- ==== Sys2Proof/Machine/Decrypt.lean ====
section
/-! DEFINITION. The decrypt family: the commands DEC.CBC, DEC.ECB, DEC.RSV as they are written to CTRL, and the body of
the job they start (R180 to R184). -/

namespace Sys2Proof.Machine

/-- The ciphertext part of the input: the whole of it in ECB, the bytes after the IV in CBC (R184). -/
def cipherPart (mode : BitVec 2) (inb : Nat → Byte) (inLen : Nat) : Bytes :=
  if mode = 0 then slice inb Config.block inLen else slice inb 0 inLen

/-- The deciphered, still padded text (R180, check 7's operand). -/
def decipher (mode : BitVec 2) (k : Bytes) (inb : Nat → Byte) (inLen : Nat) : Bytes :=
  if mode = 0 then cbcDec k (slice inb 0 Config.block) (cipherPart mode inb inLen)
  else ecbDec k (cipherPart mode inb inLen)

/-- The shared decrypt body (R180), with the checks in the order written; `inCap` is the parameter IN_CAP. -/
def decryptJob (inCap : Nat) (mode : BitVec 2) (keyLen : Nat) (keyb inb : Nat → Byte) (inLen : Nat) : JobResult :=
  if ¬(mode = 0 ∨ mode = 1) then .err .cipher
  else if ¬LegalKeyLen keyLen then .err .invalidKey
  else if inCap < inLen then .err .length
  else if mode = 0 ∧ inLen < Config.block then .err .malformedEnvelope
  else if (cipherPart mode inb inLen).length = 0 ∨ (cipherPart mode inb inLen).length % Config.block ≠ 0 then
    .err .padding
  else unpad (decipher mode (slice keyb 0 keyLen) inb inLen)

/-- DEC.CBC is written to CTRL (R181, R150). -/
def execDecCbc (irq : Bool) (s : State) : Host.Outcome State Fault Refusal := .next (s.command .decrypt 0 irq)

/-- DEC.ECB is written to CTRL (R182, R150). -/
def execDecEcb (irq : Bool) (s : State) : Host.Outcome State Fault Refusal := .next (s.command .decrypt 1 irq)

/-- DEC.RSV is written to CTRL (R183, R150). -/
def execDecRsv (mode : BitVec 2) (irq : Bool) (s : State) : Host.Outcome State Fault Refusal :=
  .next (s.command .decrypt mode irq)

end Sys2Proof.Machine
end

