-- ==== Sys2Proof/Machine/Encrypt.lean ====
section
/-! DEFINITION. The encrypt family: the commands ENC.CBC, ENC.ECB, ENC.RSV as they are written to CTRL, and the body of
the job they start (R160 to R163). -/

namespace Sys2Proof.Machine

/-- The shared encrypt body (R160), with the checks in the order written; `inCap` is the parameter IN_CAP. -/
def encryptJob (inCap : Nat) (mode : BitVec 2) (keyLen : Nat) (keyb inb : Nat → Byte) (inLen : Nat) (draw : Draw) :
    JobResult :=
  if ¬(mode = 0 ∨ mode = 1) then .err .cipher
  else if ¬LegalKeyLen keyLen then .err .invalidKey
  else if inCap < inLen then .err .length
  else if mode = 1 then .ok (ecbEnc (slice keyb 0 keyLen) (pad (slice inb 0 inLen)))
  else
    match draw with
    | .fail => .err .cipher
    | .iv v => .ok (v.toList ++ cbcEnc (slice keyb 0 keyLen) v.toList (pad (slice inb 0 inLen)))

/-- ENC.CBC is written to CTRL (R161, R150). -/
def execEncCbc (irq : Bool) (s : State) : Host.Outcome State Fault Refusal := .next (s.command .encrypt 0 irq)

/-- ENC.ECB is written to CTRL (R162, R150). -/
def execEncEcb (irq : Bool) (s : State) : Host.Outcome State Fault Refusal := .next (s.command .encrypt 1 irq)

/-- ENC.RSV is written to CTRL (R163, R150). -/
def execEncRsv (mode : BitVec 2) (irq : Bool) (s : State) : Host.Outcome State Fault Refusal :=
  .next (s.command .encrypt mode irq)

end Sys2Proof.Machine
end

