-- ==== Sys2Proof/Machine/Dispatch.lean ====
section
/-! DEFINITION. One arm per instruction. -/

namespace Sys2Proof.Machine

def exec (i : Instr) (s : State) : Host.Outcome State Fault Refusal :=
  match i with
  | .nop mode irq => Sys2Proof.Machine.execNop mode irq s
  | .encCbc irq => Sys2Proof.Machine.execEncCbc irq s
  | .encEcb irq => Sys2Proof.Machine.execEncEcb irq s
  | .encRsv mode irq => Sys2Proof.Machine.execEncRsv mode irq s
  | .decCbc irq => Sys2Proof.Machine.execDecCbc irq s
  | .decEcb irq => Sys2Proof.Machine.execDecEcb irq s
  | .decRsv mode irq => Sys2Proof.Machine.execDecRsv mode irq s
  | .zeroize mode irq => Sys2Proof.Machine.execZeroize mode irq s

end Sys2Proof.Machine
end

