-- ==== Sys2Proof/Machine/Engine.lean ====
section
/-! DEFINITION. The engine: the job function and its one atomic step (R152 to R154). -/

namespace Sys2Proof.Machine

/-- The job function (R153): pure, from the latched command and mode, the operands and the entropy source's answer. -/
def jobFunction (inCap : Nat) (j : Job) (keyLen : Nat) (keyb inb : Nat → Byte) (inLen : Nat) (draw : Draw) : JobResult :=
  match j.cmd with
  | .encrypt => encryptJob inCap j.mode keyLen keyb inb inLen draw
  | .decrypt => decryptJob inCap j.mode keyLen keyb inb inLen
  | .zeroize => .ok []

/-- The outcome of job `j` on the operands of `s`. -/
def State.jobResult (s : State) (j : Job) : JobResult :=
  jobFunction s.config.inCap j s.keyLen.toNat s.keyByte s.inByte s.inLen.toNat s.nextDraw

/-- A job requests an IV exactly when it is ENC.CBC and passes checks 1 to 3 (R160, R246). -/
def State.requestsIv (s : State) (j : Job) : Bool :=
  j.cmd == .encrypt && j.mode == 0 && decide (LegalKeyLen s.keyLen.toNat) && decide (s.inLen.toNat ≤ s.config.inCap)

/-- The request of the job, if it makes one, is answered (R246). -/
def State.takeIv (s : State) (j : Job) : State := if s.requestsIv j then s.consumeDraw else s

/-- The writes a ZEROIZE job makes beside completion (R201). -/
def State.jobClears (s : State) (j : Job) : State := if j.cmd = .zeroize then s.clearOperands else s

/-- The engine step: enabled while a job is pending, it runs the whole job and completes it; otherwise the engine has
no step and the state stays (R152). -/
def State.engineStep (s : State) : State :=
  match s.job with
  | none => s
  | some j => ((s.takeIv j).jobClears j).complete (s.jobResult j)

/-- A turn of the engine: none while reset is asserted (R260). -/
def State.engineTurn (s : State) : State := if s.resetLine then s else s.engineStep

end Sys2Proof.Machine
end

