-- ==== Sys2Proof/Machine/Bus.lean ====
section
/-! DEFINITION. The bus target: the window and its map, reads and writes of each location, and what each event at the
ports does (R60 to R66, R240, R241). A write to CTRL is decoded as a command and run by exec (R90). -/

namespace Sys2Proof.Machine

/-- The offset of a bus address in the window at PCE_BASE; none where the PCE does not decode it (R71). -/
def windowOffset (p : Config.Params) (addr : Nat) : Option Offset :=
  if p.pceBase ≤ addr ∧ addr < p.pceBase + Config.windowBytes then some (BitVec.ofNat 18 (addr - p.pceBase)) else none

/-- What the map puts at an offset (R62). -/
inductive Location where
  | id
  | ctrl
  | status
  | keyLen
  | inLen
  | outLen
  | inCap
  | key (j : Fin 8)
  | inWord (j : Nat)
  | outWord (j : Nat)
  | unmapped
deriving DecidableEq, Repr

/-- The map of the window (R62), for word-aligned offsets. -/
def locate (p : Config.Params) (off : Offset) : Location :=
  let o := off.toNat
  if o = 0x00 then .id
  else if o = 0x04 then .ctrl
  else if o = 0x08 then .status
  else if o = 0x0C then .keyLen
  else if o = 0x10 then .inLen
  else if o = 0x14 then .outLen
  else if o = 0x18 then .inCap
  else if 0x20 ≤ o ∧ o < 0x40 then .key (Fin.ofNat 8 ((o - 0x20) / 4))
  else if Config.inWindow ≤ o ∧ o < Config.outWindow ∧ o - Config.inWindow < p.inCap then
    .inWord ((o - Config.inWindow) / 4)
  else if Config.outWindow ≤ o ∧ o < 0x30000 ∧ o - Config.outWindow < p.outCap then
    .outWord ((o - Config.outWindow) / 4)
  else .unmapped

/-- The data of a read, none where it is a BusError (R62, R64). -/
def State.readData (s : State) : Location → Option Word
  | .id => some idWord
  | .ctrl => some s.ctrlWord
  | .status => some s.statusWord
  | .keyLen => some (s.keyLen.zeroExtend 32)
  | .inLen => some s.inLen
  | .outLen => some s.outLen
  | .inCap => some (BitVec.ofNat 32 s.config.inCap)
  | .key _ => some 0
  | .inWord j => some (s.inWord j)
  | .outWord j => some (s.outWord j)
  | .unmapped => none

/-- A host read: data or BusError, no other effect (R64, R70). -/
def State.busRead (off : Offset) (s : State) : State :=
  match s.readData (locate s.config off) with
  | some v => s.respond (.data v)
  | none => s.raiseBusError off

/-- A write of an operand register or an IN word: `t` while idle (R65), refused while busy (R66); okay either way. -/
def State.operandWrite (t s : State) : State :=
  (if s.busy then s.refuseOperand else t).respond .okay

/-- A host write (R65, R66, R202). -/
def busWrite (off : Offset) (v : Word) (s : State) : Host.Outcome State Fault Refusal :=
  match locate s.config off with
  | .ctrl => exec (decodeWord v) s
  | .status => .next ((s.acknowledge v).respond .okay)
  | .keyLen => .next (State.operandWrite { s with keyLen := v.extractLsb' 0 8 } s)
  | .inLen => .next (State.operandWrite { s with inLen := v } s)
  | .key j => .next (State.operandWrite { s with key := s.key.set j v } s)
  | .inWord j => .next (State.operandWrite { s with inbuf := s.inbuf.store (4 * j) (wordBytes v) } s)
  | .id => .next (s.raiseBusError off)
  | .outLen => .next (s.raiseBusError off)
  | .inCap => .next (s.raiseBusError off)
  | .outWord _ => .next (s.raiseBusError off)
  | .unmapped => .next (s.raiseBusError off)

/-- Only 32-bit, word-aligned accesses are accepted (R61). -/
def acceptedShape (off : Offset) (size : Nat) : Bool := size == 4 && off.extractLsb' 0 2 == 0

/-- One bus access (R60): the BusError of its shape comes before every other effect (R61, R241). -/
def busAccess (off : Offset) (size : Nat) (write : Bool) (v : Word) (s : State) : Host.Outcome State Fault Refusal :=
  if !acceptedShape off size then .next (s.raiseBusError off)
  else if write then busWrite off v s
  else .next (s.busRead off)

/-- A bus access at an address: the PCE answers only in its own window (R71), and not as R64 to R66 say while reset is
asserted (R260). -/
def busCycle (addr size : Nat) (write : Bool) (v : Word) (s : State) : Host.Outcome State Fault Refusal :=
  match windowOffset s.config addr with
  | none => .next { s with response := none }
  | some off => if s.resetLine then .next s.accessInReset else busAccess off size write v s

/-- What one event at the ports does. -/
def takeInput (i : Input) (s : State) : Host.Outcome State Fault Refusal :=
  match i with
  | .bus addr size write v => busCycle addr size write v s
  | .engine => .next s.engineTurn
  | .reset level => .next (s.setResetLine level)

end Sys2Proof.Machine
end

