-- ==== Sys2Proof/Machine/Step.lean ====
section
/-! DEFINITION. One step: the next event of the schedule (R73, R75). With no event left, a pending job's engine step is
taken (R157), and otherwise nothing is enabled and the state stays (R10). -/

namespace Sys2Proof.Machine

def step (s : State) : Host.Outcome State Fault Refusal :=
  match s.inputs with
  | [] => .next s.engineTurn
  | i :: rest => takeInput i { s with inputs := rest }

/-- `s` with the write of a command word to CTRL as the next event, and reset released (log entry 4). -/
def State.withFetchWord (s : State) (nbits w : Nat) : State :=
  { s with
    resetLine := false
    inputs := .bus (s.config.pceBase + 4) 4 true (BitVec.ofNat 32 (w % 2 ^ nbits)) :: s.inputs }

end Sys2Proof.Machine
end

