-- ==== Sys2Proof/Safety.lean ====
section
/-! DEFINITION. The states a run of the PCE stays in: the invariant the spec's rules make of them, and what software can
see. -/

namespace Sys2Proof.Machine

/-- While a job is pending nothing of an earlier result shows (R150), and the latched mode is CTRL.MODE, which is not
writable while busy (R66, R151). -/
structure BusyClean (s : State) : Prop where
  notDone : s.busy = true → s.done = false
  noError : s.busy = true → s.err = 0
  noOutput : s.busy = true → s.outLen = 0
  modeHeld : ∀ j, s.job = some j → j.mode = s.mode

/-- A buffer holds a canonical memory whose indexes lie inside its capacity (R31, R32). -/
structure BufferOk (cap : Nat) (m : Memory) : Prop where
  canonical : m.wf
  inside : ∀ c ∈ m, c.1 < cap

/-- While reset is asserted every register has its reset value (R36, R260). -/
structure HeldInReset (s : State) : Prop where
  mode : s.mode = 0
  irqEn : s.irqEn = false
  done : s.done = false
  accErr : s.accErr = false
  err : s.err = 0
  keyLen : s.keyLen = 0
  key : s.key = Vector.replicate 8 0
  inLen : s.inLen = 0
  outLen : s.outLen = 0
  job : s.job = none
  inbuf : s.inbuf = []
  outbuf : s.outbuf = []

/-- The invariant of the PCE. -/
structure Inv (s : State) : Prop where
  /-- the parameters are in range (R9) -/
  config : s.config.Legal
  /-- ERR codes 6 to 15 are never produced (R226) -/
  errCode : s.err.toNat ≤ 5
  /-- OUT_LEN never exceeds OUT_CAP (R27) -/
  outLen : s.outLen.toNat ≤ s.config.outCap
  /-- an error shows no result byte (R154) -/
  errNoOutput : s.err ≠ 0 → s.outLen = 0
  /-- every byte below OUT_LEN was written by a job, so the gate never shows an unspecified byte (R32) -/
  outKnown : ∀ i, i < s.outLen.toNat → (s.outbuf.read? i).isSome
  inbuf : BufferOk s.config.inCap s.inbuf
  outbuf : BufferOk s.config.outCap s.outbuf
  busy : BusyClean s
  inReset : s.resetLine = true → HeldInReset s

end Sys2Proof.Machine
end

