-- ==== Sys2Proof/Certificates/Slice0/Obligations.lean ====
section
/-! DEFINITION. The statements for the provers, made from the numbered rules of spec/. Each docstring names the rules. -/

open Sys2Proof Sys2Proof.Machine

/-! ## Encoding -/

/-- Command words written out bit by bit from R91 and R96, one or more of each row, decode to their instructions. In the
last clause the word is read from its four bytes, least significant first, in the model's own byte stream (log entry 8). -/
def Obligations.CommandWordsDecode : Prop :=
  decodeWord 0x00000000 = .nop 0 false ∧ decodeWord 0x0000000C = .nop 3 false ∧
  decodeWord 0x00000001 = .encCbc false ∧ decodeWord 0x00000011 = .encCbc true ∧
  decodeWord 0x00000005 = .encEcb false ∧ decodeWord 0x0000000D = .encRsv 3 false ∧
  decodeWord 0x00000002 = .decCbc false ∧ decodeWord 0x00000016 = .decEcb true ∧
  decodeWord 0x0000000A = .decRsv 2 false ∧ decodeWord 0x0000000F = .zeroize 3 false ∧
  decodeWord 0xFFFFFFE0 = .nop 0 false ∧ decode [0x15, 0x00, 0x00, 0x00] = .ok (.encEcb true, [])

/-- Decoding an encoded well-formed instruction gives it back, whatever bytes follow (R91 to R96). -/
def Obligations.DecodeOfEncodeIsTheInstruction : Prop :=
  ∀ (i : Instr) (rest : Bytes), i.wellFormed = true → decode (encode i ++ rest) = .ok (i, rest)

/-- R96: each word matches exactly one row of the map, the row of the instruction it decodes to; the canonical words; bit
4 gives the same command with the interrupt enabled. -/
def Obligations.OpcodeMapPartitionsTheWords : Prop :=
  (∀ w : Word, ∃ r ∈ opcodeRows, r.covers w = true ∧ r.mnemonic = (decodeWord w).mnemonic ∧
    ∀ r' ∈ opcodeRows, r'.covers w = true → r' = r) ∧
  (∀ w : Word, (decodeWord (w ||| 0x10)).mnemonic = (decodeWord w).mnemonic ∧ irqField (w ||| 0x10) = true ∧
    cmdField (w ||| 0x10) = cmdField w ∧ modeField (w ||| 0x10) = modeField w) ∧
  [Instr.nop 0 false, .nop 1 false, .nop 2 false, .nop 3 false].map encodeWord = [0x0, 0x4, 0x8, 0xC] ∧
  [Instr.encCbc false, .encEcb false, .encRsv 2 false, .encRsv 3 false].map encodeWord = [0x1, 0x5, 0x9, 0xD] ∧
  [Instr.decCbc false, .decEcb false, .decRsv 2 false, .decRsv 3 false].map encodeWord = [0x2, 0x6, 0xA, 0xE] ∧
  [Instr.zeroize 0 false, .zeroize 1 false, .zeroize 2 false, .zeroize 3 false].map encodeWord = [0x3, 0x7, 0xB, 0xF] ∧
  encodeWord (.encCbc true) = 0x11

/-- The other direction: every word decodes to a well-formed instruction, whose canonical word is the word with its
ignored bits cleared (R94, R96, R97). -/
def Obligations.EncodeOfDecodeClearsReservedBits : Prop :=
  ∀ w : Word, (decodeWord w).wellFormed = true ∧ encodeWord (decodeWord w) = w &&& 0x1F

/-- R94: IRQ_EN is stored by every CTRL write, busy or not; bits 31:5 select nothing, are not stored and read back as 0;
a word behaves exactly as the same word with those bits cleared. -/
def Obligations.ReservedBitsSelectNothing : Prop :=
  ∀ (w v : Word) (s : State),
    busAccess 0x04 4 true w s = busAccess 0x04 4 true (w &&& 0x1F) s ∧
    ∃ t, busAccess 0x04 4 true w s = .next t ∧ t.irqEn = w.getLsbD 4 ∧
      ∃ d : Word, busAccess 0x04 4 false v t = .next { t with response := some (.data d) } ∧ d &&& 0xFFFFFFE0 = 0

/-! ## The step and the commands -/

/-- A step whose next event is the write of a command word to CTRL is exec of the decoded instruction, on the state whose
schedule has moved past the event; and withFetchWord makes the next step such a step (R90). -/
def Obligations.StepRunsTheDecodedInstruction : Prop :=
  (∀ (s : State) (w : Word) (rest : List Input) (i : Instr),
    s.resetLine = false → s.inputs = .bus (s.config.pceBase + 4) 4 true w :: rest → decode (wordBytes w) = .ok (i, []) →
    step s = exec i { s with inputs := rest }) ∧
  (∀ (s : State) (n w : Nat) (i : Instr), decodeTableWord n w = some i →
    step (s.withFetchWord n w) = exec i { s with resetLine := false })

/-- What the next event does while reset is released: an access at any offset of the window, of any size, read or write,
is busAccess at that offset (R60, R62, R71, R73), a turn of the engine is the engine step (R152), and the level asserted
resets while the level released changes nothing but the line (R260), each on the state whose schedule has moved past the
event. The schedule and the reset level in State are the model's own (log entries 4 and 6). -/
def Obligations.StepTakesTheNextEvent : Prop :=
  ∀ (s : State) (rest : List Input),
    (∀ (off : Offset) (size : Nat) (write : Bool) (v : Word), s.resetLine = false →
      s.inputs = .bus (s.config.pceBase + off.toNat) size write v :: rest →
      step s = busAccess off size write v { s with inputs := rest }) ∧
    (s.resetLine = false → s.inputs = .engine :: rest → step s = .next (State.engineStep { s with inputs := rest })) ∧
    (s.resetLine = false → s.inputs = .reset true :: rest →
      step s = .next (State.assertReset { s with inputs := rest })) ∧
    (s.inputs = .reset false :: rest → step s = .next { s with inputs := rest, resetLine := false })

/-- R150: START. A command word with CMD ≠ 0 while no job is pending stores MODE and IRQ_EN, clears DONE, ERR and OUT_LEN
and latches the job, whatever the operands; acc_err and all else stay, the write returns okay. While a job is pending it
is refused as R66 states. -/
def Obligations.CommandWordsStart : Prop :=
  ∀ (s : State) (w : Word), cmdField w ≠ 0 →
    (s.job = none →
      exec (decodeWord w) s = .next
        { s with
          mode := w.extractLsb' 2 2, irqEn := w.getLsbD 4, done := false, err := 0, outLen := 0
          job := some ⟨if cmdField w = 1 then .encrypt else if cmdField w = 2 then .decrypt else .zeroize,
            w.extractLsb' 2 2⟩
          response := some .okay }) ∧
    (s.job ≠ none →
      exec (decodeWord w) s = .next { s with irqEn := w.getLsbD 4, accErr := true, response := some .okay })

/-- ENC.CBC, ENC.ECB and ENC.RSV while idle are STARTs of an encrypt job with their mode; nothing else changes (R150,
R161 to R163). R163 knows the modes 2 and 3; that exec of the ill-formed terms encRsv 0 and encRsv 1 is the same START is
the model's choice (log entry 11). -/
def Obligations.EncryptCommandsStart : Prop :=
  ∀ (s : State) (irq : Bool) (m : BitVec 2), s.job = none →
    exec (.encCbc irq) s = .next
      { s with mode := 0, irqEn := irq, done := false, err := 0, outLen := 0, job := some ⟨.encrypt, 0⟩,
               response := some .okay } ∧
    exec (.encEcb irq) s = .next
      { s with mode := 1, irqEn := irq, done := false, err := 0, outLen := 0, job := some ⟨.encrypt, 1⟩,
               response := some .okay } ∧
    exec (.encRsv m irq) s = .next
      { s with mode := m, irqEn := irq, done := false, err := 0, outLen := 0, job := some ⟨.encrypt, m⟩,
               response := some .okay }

/-- DEC.CBC, DEC.ECB and DEC.RSV while idle are STARTs of a decrypt job with their mode; nothing else changes (R150,
R181 to R183). R183 knows the modes 2 and 3; that exec of the ill-formed terms decRsv 0 and decRsv 1 is the same START is
the model's choice (log entry 11). -/
def Obligations.DecryptCommandsStart : Prop :=
  ∀ (s : State) (irq : Bool) (m : BitVec 2), s.job = none →
    exec (.decCbc irq) s = .next
      { s with mode := 0, irqEn := irq, done := false, err := 0, outLen := 0, job := some ⟨.decrypt, 0⟩,
               response := some .okay } ∧
    exec (.decEcb irq) s = .next
      { s with mode := 1, irqEn := irq, done := false, err := 0, outLen := 0, job := some ⟨.decrypt, 1⟩,
               response := some .okay } ∧
    exec (.decRsv m irq) s = .next
      { s with mode := m, irqEn := irq, done := false, err := 0, outLen := 0, job := some ⟨.decrypt, m⟩,
               response := some .okay }

/-- R200: NOP stores MODE and IRQ_EN while idle and IRQ_EN alone while busy; it issues no job, changes no STATUS bit, key,
length or buffer, and is answered okay. Enabling IRQ_EN while DONE = 1 raises irq at once; the word 0 restores CBC. -/
def Obligations.NopStoresModeAndIrqEn : Prop :=
  (∀ w : Word, cmdField w = 0 → decodeWord w = .nop (w.extractLsb' 2 2) (w.getLsbD 4)) ∧
  (∀ (s : State) (m : BitVec 2) (irq : Bool), s.job = none →
    exec (.nop m irq) s = .next { s with mode := m, irqEn := irq, response := some .okay }) ∧
  (∀ (s : State) (m : BitVec 2) (irq : Bool), s.job ≠ none →
    exec (.nop m irq) s = .next { s with irqEn := irq, response := some .okay }) ∧
  (∀ (s : State) (m : BitVec 2), s.done = true → ∃ t, exec (.nop m true) s = .next t ∧ t.irq = true) ∧
  (∀ s : State, s.job = none → ∃ t, exec (decodeWord 0) s = .next t ∧ t.mode = 0)

/-! ## Bus accesses -/

/-- R66: writes while a job is pending. Operand writes are refused and set ACC_ERR, answered okay; a CTRL write applies
IRQ_EN only, and sets ACC_ERR if its CMD is not 0; a STATUS write acts as R202 says. -/
def Obligations.BusyWritesAreRefused : Prop :=
  ∀ (s : State) (v : Word), s.job ≠ none → s.config.Legal →
    (busAccess 0x0C 4 true v s = .next { s with accErr := true, response := some .okay } ∧
     busAccess 0x10 4 true v s = .next { s with accErr := true, response := some .okay } ∧
     (∀ j : Nat, j < 8 →
       busAccess (BitVec.ofNat 18 (0x20 + 4 * j)) 4 true v s =
         .next { s with accErr := true, response := some .okay }) ∧
     (∀ j : Nat, 4 * j < s.config.inCap →
       busAccess (BitVec.ofNat 18 (0x10000 + 4 * j)) 4 true v s =
         .next { s with accErr := true, response := some .okay })) ∧
    busAccess 0x04 4 true v s =
      .next { s with irqEn := v.getLsbD 4, accErr := s.accErr || cmdField v != 0, response := some .okay } ∧
    busAccess 0x08 4 true v s =
      .next { s with done := s.done && !v.getLsbD 1, accErr := s.accErr && !v.getLsbD 2, response := some .okay }

/-- R65: writes while no job is pending. KEY_LEN stores bits 7:0, IN_LEN and KEYj the word, an IN word its four bytes,
least significant first, every other byte of the buffer and every other register as before; a CTRL write runs its
command word; a STATUS write acknowledges (R202). -/
def Obligations.IdleWritesStoreTheOperand : Prop :=
  ∀ (s : State) (v : Word), s.job = none → s.config.Legal →
    busAccess 0x04 4 true v s = exec (decodeWord v) s ∧
    busAccess 0x0C 4 true v s = .next { s with keyLen := v.extractLsb' 0 8, response := some .okay } ∧
    busAccess 0x10 4 true v s = .next { s with inLen := v, response := some .okay } ∧
    (∀ j : Fin 8, busAccess (BitVec.ofNat 18 (0x20 + 4 * j.val)) 4 true v s =
      .next { s with key := s.key.set j v, response := some .okay }) ∧
    (∀ j : Nat, 4 * j < s.config.inCap →
      ∃ m : Memory, busAccess (BitVec.ofNat 18 (0x10000 + 4 * j)) 4 true v s =
          .next { s with inbuf := m, response := some .okay } ∧
        ∀ i : Nat, State.inByte { s with inbuf := m } i =
          if 4 * j ≤ i ∧ i < 4 * j + 4 then v.extractLsb' (8 * (i - 4 * j)) 8 else s.inByte i) ∧
    busAccess 0x08 4 true v s =
      .next { s with done := s.done && !v.getLsbD 1, accErr := s.accErr && !v.getLsbD 2, response := some .okay }

/-- R202: a STATUS write clears DONE and ACC_ERR where bits 1 and 2 are 1, ignores every other bit, never raises BusError
and never sets ACC_ERR, busy or not; clearing DONE drops irq; ERR and BUSY stay; while busy, where DONE is 0 from START,
it leaves DONE as it is. -/
def Obligations.StatusWriteAcknowledges : Prop :=
  ∀ (s : State) (v : Word),
    ∃ t, busAccess 0x08 4 true v s = .next t ∧
      t = { s with
            done := if v.getLsbD 1 then false else s.done
            accErr := if v.getLsbD 2 then false else s.accErr
            response := some .okay } ∧
      (v.getLsbD 1 = true → t.irq = false) ∧ t.err = s.err ∧ t.busy = s.busy ∧
      (v = 0 → t = { s with response := some .okay }) ∧
      (BusyClean s → s.busy = true → t.done = s.done)

/-- R64: what a read of each mapped location returns, busy or not. -/
def Obligations.ReadsReturnTheRegisters : Prop :=
  ∀ (s : State) (v : Word), s.config.Legal →
    busAccess 0x00 4 false v s = .next { s with response := some (.data 0x5043011F) } ∧
    busAccess 0x04 4 false v s =
      .next { s with response := some (.data (BitVec.ofNat 32 (16 * s.irqEn.toNat + 4 * s.mode.toNat))) } ∧
    busAccess 0x08 4 false v s =
      .next { s with
        response := some (.data (BitVec.ofNat 32
          (16 * s.err.toNat + 4 * s.accErr.toNat + 2 * s.done.toNat + if s.job = none then 0 else 1))) } ∧
    busAccess 0x0C 4 false v s = .next { s with response := some (.data (BitVec.ofNat 32 s.keyLen.toNat)) } ∧
    busAccess 0x10 4 false v s = .next { s with response := some (.data s.inLen) } ∧
    busAccess 0x14 4 false v s = .next { s with response := some (.data s.outLen) } ∧
    busAccess 0x18 4 false v s = .next { s with response := some (.data (BitVec.ofNat 32 s.config.inCap)) } ∧
    (∀ j : Nat, j < 8 →
      busAccess (BitVec.ofNat 18 (0x20 + 4 * j)) 4 false v s = .next { s with response := some (.data 0) }) ∧
    (∀ j : Nat, 4 * j < s.config.inCap →
      ∃ d : Word, busAccess (BitVec.ofNat 18 (0x10000 + 4 * j)) 4 false v s =
          .next { s with response := some (.data d) } ∧
        ∀ i : Nat, i < 4 → d.extractLsb' (8 * i) 8 = s.inByte (4 * j + i)) ∧
    (∀ j : Nat, 4 * j < s.config.outCap →
      ∃ d : Word, busAccess (BitVec.ofNat 18 (0x20000 + 4 * j)) 4 false v s =
          .next { s with response := some (.data d) } ∧
        ∀ i : Nat, i < 4 → d.extractLsb' (8 * i) 8 =
          if 4 * j + i < s.outLen.toNat then s.outByte (4 * j + i) else 0)

/-- Every read, accepted or not, leaves all but the response as it was, and the same read again returns the same (R70). -/
def Obligations.ReadsHaveNoSideEffect : Prop :=
  ∀ (off : Offset) (size : Nat) (v v' : Word) (s : State),
    ∃ r, busAccess off size false v s = .next { s with response := some r } ∧
      busAccess off size false v' { s with response := some r } = .next { s with response := some r }

/-- R61, R63, R240, R241: exactly these accesses are answered with BusError, busy or not, and such an access changes
nothing, ACC_ERR included; every other access is not answered with BusError. -/
def Obligations.BusErrorExactlyWhere : Prop :=
  ∀ (off : Offset) (size : Nat) (write : Bool) (v : Word) (s : State), s.config.Legal →
    let o := off.toNat
    let refused : Prop :=
      size ≠ 4 ∨ o % 4 ≠ 0 ∨
      o = 0x1C ∨ (0x40 ≤ o ∧ o < 0x10000) ∨ (0x10000 + s.config.inCap ≤ o ∧ o < 0x20000) ∨
      (0x20000 + s.config.outCap ≤ o ∧ o < 0x30000) ∨ 0x30000 ≤ o ∨
      (write = true ∧ (o = 0x00 ∨ o = 0x14 ∨ o = 0x18 ∨ (0x20000 ≤ o ∧ o < 0x20000 + s.config.outCap)))
    (refused → busAccess off size write v s = .next { s with response := some (.busError off) }) ∧
    (¬refused → ∃ t r, busAccess off size write v s = .next t ∧ t.response = some r ∧ ∀ off', r ≠ .busError off')

/-- No access sees the key words: a read returns the same whatever they hold (R29). -/
def Obligations.KeysCannotBeReadBack : Prop :=
  ∀ (off : Offset) (size : Nat) (v : Word) (s : State) (k : Vector Word 8),
    ∃ r, busAccess off size false v s = .next { s with response := some r } ∧
      busAccess off size false v { s with key := k } = .next { s with key := k, response := some r }

/-- No read sees an output byte at index OUT_LEN or above: it returns the same whatever they hold, and with OUT_LEN = 0
every OUT word reads 0 (R32). -/
def Obligations.OutputGateHidesStaleBytes : Prop :=
  (∀ (off : Offset) (size : Nat) (v : Word) (s : State) (m : Memory),
    (∀ i, i < s.outLen.toNat → State.outByte { s with outbuf := m } i = s.outByte i) →
    ∃ r, busAccess off size false v s = .next { s with response := some r } ∧
      busAccess off size false v { s with outbuf := m } = .next { s with outbuf := m, response := some r }) ∧
  (∀ (s : State) (j : Nat) (v : Word), s.config.Legal → s.outLen = 0 → 4 * j < s.config.outCap →
    busAccess (BitVec.ofNat 18 (0x20000 + 4 * j)) 4 false v s = .next { s with response := some (.data 0) })

/-- A read right after a write returns what the write left, while no job is pending (R67, R73, R269). -/
def Obligations.ReadAfterWriteReturnsIt : Prop :=
  ∀ (s : State) (v x : Word), s.job = none → s.config.Legal →
    (∃ t, busAccess 0x0C 4 true v s = .next t ∧
      busAccess 0x0C 4 false x t = .next { t with response := some (.data (v &&& 0xFF)) }) ∧
    (∃ t, busAccess 0x10 4 true v s = .next t ∧
      busAccess 0x10 4 false x t = .next { t with response := some (.data v) }) ∧
    (∃ t, busAccess 0x04 4 true v s = .next t ∧
      busAccess 0x04 4 false x t = .next { t with response := some (.data (v &&& 0x1C)) }) ∧
    (∀ j : Nat, 4 * j < s.config.inCap →
      ∃ t, busAccess (BitVec.ofNat 18 (0x10000 + 4 * j)) 4 true v s = .next t ∧
        busAccess (BitVec.ofNat 18 (0x10000 + 4 * j)) 4 false x t = .next { t with response := some (.data v) })

/-- The key bytes are the KEY words' bytes, little-endian: a write of KEYj makes KEYB[4j+i] byte i of the word and leaves
every other key byte (R30, R67). -/
def Obligations.KeyWritesSetTheKeyBytes : Prop :=
  ∀ (s : State) (v : Word) (j : Nat), s.job = none → j < 8 →
    ∃ t, busAccess (BitVec.ofNat 18 (0x20 + 4 * j)) 4 true v s = .next t ∧
      ∀ i, i < 32 → t.keyByte i =
        if 4 * j ≤ i ∧ i < 4 * j + 4 then v.extractLsb' (8 * (i - 4 * j)) 8 else s.keyByte i

/-- The PCE decodes its own window only: a bus cycle elsewhere leaves every register, buffer and port of it, and it gives
no answer (R71). -/
def Obligations.OtherAddressesAreNotDecoded : Prop :=
  ∀ (s : State) (addr size : Nat) (write : Bool) (v : Word) (rest : List Input),
    s.inputs = .bus addr size write v :: rest → (addr < s.config.pceBase ∨ s.config.pceBase + 0x40000 ≤ addr) →
    step s = .next { s with inputs := rest, response := none }

/-! ## Jobs -/

/-- R227: the order of the checks, job by job; the first that fails gives the outcome. -/
def Obligations.ChecksRunInOrder : Prop :=
  ∀ (s : State) (m : BitVec 2),
    s.jobResult ⟨.zeroize, m⟩ = .ok [] ∧
    (m = 2 ∨ m = 3 → s.jobResult ⟨.encrypt, m⟩ = .err .cipher ∧ s.jobResult ⟨.decrypt, m⟩ = .err .cipher) ∧
    (m = 0 ∨ m = 1 →
      (¬LegalKeyLen s.keyLen.toNat →
        s.jobResult ⟨.encrypt, m⟩ = .err .invalidKey ∧ s.jobResult ⟨.decrypt, m⟩ = .err .invalidKey) ∧
      (LegalKeyLen s.keyLen.toNat →
        (s.config.inCap < s.inLen.toNat →
          s.jobResult ⟨.encrypt, m⟩ = .err .length ∧ s.jobResult ⟨.decrypt, m⟩ = .err .length) ∧
        (s.inLen.toNat ≤ s.config.inCap →
          (m = 0 ∧ s.inLen.toNat < 16 → s.jobResult ⟨.decrypt, m⟩ = .err .malformedEnvelope) ∧
          ((m = 0 → 16 ≤ s.inLen.toNat) →
            let n := if m = 0 then s.inLen.toNat - 16 else s.inLen.toNat
            let pp := if m = 0 then cbcDec s.jobKey (slice s.inByte 0 16) (slice s.inByte 16 s.inLen.toNat)
              else ecbDec s.jobKey s.jobData
            (n = 0 ∨ n % 16 ≠ 0 → s.jobResult ⟨.decrypt, m⟩ = .err .padding) ∧
            (n ≠ 0 ∧ n % 16 = 0 →
              s.jobResult ⟨.decrypt, m⟩ = unpad pp ∧ ∀ k, unpad pp = .err k → k = .padding)) ∧
          (m = 0 ∧ s.nextDraw = .fail → s.jobResult ⟨.encrypt, m⟩ = .err .cipher) ∧
          (m = 1 → ∃ out, s.jobResult ⟨.encrypt, m⟩ = .ok out) ∧
          (∀ v, m = 0 ∧ s.nextDraw = .iv v → ∃ out, s.jobResult ⟨.encrypt, m⟩ = .ok out))))

/-- R154: completion writes the outcome in one step: the result bytes, OUT_LEN and ERR, DONE, and the idle latch; output
bytes at index len(out) or above stay, an error shows none; the codes are those of R221 to R225. Every other register
and the input stay (R229). The extra writes of a ZEROIZE job are R201's. -/
def Obligations.CompletionWritesTheOutcome : Prop :=
  [ErrorKind.invalidKey, .malformedEnvelope, .padding, .cipher, .length].map ErrorKind.code = [1, 2, 3, 4, 5] ∧
  ∀ (s : State) (j : Job), s.job = some j → j.cmd ≠ .zeroize → s.config.Legal →
    let t := s.engineStep
    (∀ out, s.jobResult j = .ok out →
      t.outLen.toNat = out.length ∧ t.err = 0 ∧ t.result = out ∧
      (∀ i, i < out.length → out[i]? = some (t.outByte i)) ∧ (∀ i, out.length ≤ i → t.outByte i = s.outByte i)) ∧
    (∀ k, s.jobResult j = .err k →
      t.outLen = 0 ∧ t.err = k.code ∧ t.outbuf = s.outbuf) ∧
    t.done = true ∧ t.job = none ∧
    t.mode = s.mode ∧ t.irqEn = s.irqEn ∧ t.accErr = s.accErr ∧ t.keyLen = s.keyLen ∧ t.key = s.key ∧
    t.inLen = s.inLen ∧ t.inbuf = s.inbuf ∧ t.resetLine = s.resetLine ∧ t.config = s.config ∧ t.inputs = s.inputs ∧
    t.response = s.response ∧ t.epoch = s.epoch

/-- ENC.ECB from START to completion: with a legal key length and a message that fits, the result is the ECB encryption of
the padded message, ERR is 0, and key, lengths, input buffer, ACC_ERR and the entropy source's answers are untouched
(R160, R162). -/
def Obligations.EncEcbResult : Prop :=
  ∀ (s : State) (irq : Bool), s.job = none → s.config.Legal → LegalKeyLen s.keyLen.toNat →
    s.inLen.toNat ≤ s.config.inCap →
    ∃ t, exec (.encEcb irq) s = .next t ∧ t.busy = true ∧
      let u := t.engineStep
      u.result = ecbEnc s.jobKey (pad s.jobData) ∧ u.outLen.toNat = 16 * (s.inLen.toNat / 16 + 1) ∧ u.err = 0 ∧
      u.done = true ∧ u.job = none ∧ u.mode = 1 ∧ u.irqEn = irq ∧ u.accErr = s.accErr ∧ u.key = s.key ∧
      u.keyLen = s.keyLen ∧ u.inLen = s.inLen ∧ u.inbuf = s.inbuf ∧ u.entropy = s.entropy ∧ u.config = s.config

/-- ENC.CBC from START to completion: with a legal key length, a message that fits and 16 bytes from the entropy source,
the result is those bytes, then the CBC encryption of the padded message under them (R160, R161). -/
def Obligations.EncCbcResult : Prop :=
  ∀ (s : State) (irq : Bool) (v : Vector Byte 16), s.job = none → s.config.Legal → LegalKeyLen s.keyLen.toNat →
    s.inLen.toNat ≤ s.config.inCap → s.nextDraw = .iv v →
    ∃ t, exec (.encCbc irq) s = .next t ∧ t.busy = true ∧
      let u := t.engineStep
      u.result = v.toList ++ cbcEnc s.jobKey v.toList (pad s.jobData) ∧
      u.outLen.toNat = 16 + 16 * (s.inLen.toNat / 16 + 1) ∧ u.err = 0 ∧
      u.done = true ∧ u.job = none ∧ u.mode = 0 ∧ u.irqEn = irq ∧ u.accErr = s.accErr ∧ u.key = s.key ∧
      u.keyLen = s.keyLen ∧ u.inLen = s.inLen ∧ u.inbuf = s.inbuf ∧ u.config = s.config

/-- ENC.CBC where the entropy source fails: CipherError, no result byte, the operands as they were (R161, R224). -/
def Obligations.EncCbcEntropyFailure : Prop :=
  ∀ (s : State) (irq : Bool), s.job = none → LegalKeyLen s.keyLen.toNat → s.inLen.toNat ≤ s.config.inCap →
    s.nextDraw = .fail →
    ∃ t, exec (.encCbc irq) s = .next t ∧
      let u := t.engineStep
      u.err = 4 ∧ u.outLen = 0 ∧ u.done = true ∧ u.job = none ∧ u.outbuf = s.outbuf ∧ u.key = s.key ∧
      u.keyLen = s.keyLen ∧ u.inLen = s.inLen ∧ u.inbuf = s.inbuf

/-- ENC.RSV and DEC.RSV from START to completion: always CipherError, whatever the operands; MODE keeps the reserved
value, and the entropy source is not asked (R163, R183). -/
def Obligations.ReservedModesEndWithCipherError : Prop :=
  ∀ (s : State) (m : BitVec 2) (irq : Bool), s.job = none → (m = 2 ∨ m = 3) →
    ∀ i ∈ [Instr.encRsv m irq, .decRsv m irq],
      ∃ t, exec i s = .next t ∧
        t.engineStep = { s with
          mode := m, irqEn := irq, done := true, err := 4, outLen := 0, job := none, response := some .okay }

/-- DEC.ECB from START to completion on a ciphertext whose text unpads: the result is the text (R180, R182). -/
def Obligations.DecEcbResult : Prop :=
  ∀ (s : State) (irq : Bool) (p : Bytes), s.job = none → s.config.Legal → LegalKeyLen s.keyLen.toNat →
    s.inLen.toNat ≤ s.config.inCap → s.inLen.toNat ≠ 0 → s.inLen.toNat % 16 = 0 →
    unpad (ecbDec s.jobKey s.jobData) = .ok p →
    ∃ t, exec (.decEcb irq) s = .next t ∧ t.busy = true ∧
      let u := t.engineStep
      u.result = p ∧ u.outLen.toNat = p.length ∧ u.err = 0 ∧ u.done = true ∧ u.job = none ∧ u.mode = 1 ∧
      u.irqEn = irq ∧ u.accErr = s.accErr ∧ u.key = s.key ∧ u.keyLen = s.keyLen ∧ u.inLen = s.inLen ∧
      u.inbuf = s.inbuf ∧ u.entropy = s.entropy ∧ u.config = s.config

/-- DEC.CBC from START to completion on an envelope whose text unpads: the result is the text (R180, R181). -/
def Obligations.DecCbcResult : Prop :=
  ∀ (s : State) (irq : Bool) (p : Bytes), s.job = none → s.config.Legal → LegalKeyLen s.keyLen.toNat →
    s.inLen.toNat ≤ s.config.inCap → 32 ≤ s.inLen.toNat → s.inLen.toNat % 16 = 0 →
    unpad (cbcDec s.jobKey (slice s.inByte 0 16) (slice s.inByte 16 s.inLen.toNat)) = .ok p →
    ∃ t, exec (.decCbc irq) s = .next t ∧ t.busy = true ∧
      let u := t.engineStep
      u.result = p ∧ u.outLen.toNat = p.length ∧ u.err = 0 ∧ u.done = true ∧ u.job = none ∧ u.mode = 0 ∧
      u.irqEn = irq ∧ u.accErr = s.accErr ∧ u.key = s.key ∧ u.keyLen = s.keyLen ∧ u.inLen = s.inLen ∧
      u.inbuf = s.inbuf ∧ u.entropy = s.entropy ∧ u.config = s.config

/-- The decrypt commands' errors from START to completion: the error's code, no result byte, the buffers and operands as
they were (R180 to R182, R184, R221 to R225). -/
def Obligations.DecryptErrorsAreReported : Prop :=
  ∀ (s : State) (irq : Bool) (m : BitVec 2) (k : ErrorKind), s.job = none → (m = 0 ∨ m = 1) →
    s.jobResult ⟨.decrypt, m⟩ = .err k →
    ∃ t, exec (if m = 0 then .decCbc irq else .decEcb irq) s = .next t ∧
      t.engineStep = { s with
        mode := m, irqEn := irq, done := true, err := k.code, outLen := 0, job := none, response := some .okay }

/-- R201: ZEROIZE. Accepted as a START; its engine step clears the key store, the lengths and both buffers whole, and
completes without error; ACC_ERR stays, MODE and IRQ_EN are as written. While a job is pending it is refused. -/
def Obligations.ZeroizeClearsEverything : Prop :=
  ∀ (s : State) (m : BitVec 2) (irq : Bool),
    (s.job = none →
      ∃ t, exec (.zeroize m irq) s = .next t ∧
        t = { s with mode := m, irqEn := irq, done := false, err := 0, outLen := 0, job := some ⟨.zeroize, m⟩,
                     response := some .okay } ∧
        let u := t.engineStep
        (∀ i : Fin 8, u.key[i] = 0) ∧ u.keyLen = 0 ∧ u.inLen = 0 ∧ u.outLen = 0 ∧ u.err = 0 ∧ u.done = true ∧
        u.job = none ∧ (∀ i, i < s.config.inCap → u.inByte i = 0) ∧ (∀ i, i < s.config.outCap → u.outByte i = 0) ∧
        u.mode = m ∧ u.irqEn = irq ∧ u.accErr = s.accErr ∧ u.config = s.config ∧ u.entropy = s.entropy ∧
        u.resetLine = s.resetLine ∧ u.inputs = s.inputs ∧ u.response = some .okay) ∧
    (s.job ≠ none →
      exec (.zeroize m irq) s = .next { s with irqEn := irq, accErr := true, response := some .okay })

/-- The engine has no step while no job is pending (R152). -/
def Obligations.EngineRestsWithoutAJob : Prop :=
  ∀ (s : State) (rest : List Input), s.job = none → s.inputs = .engine :: rest → step s = .next { s with inputs := rest }

/-- Only an ENC.CBC job that passes checks 1 to 3 asks the entropy source, and asks once; a source that cannot fail does
not (R160, R246). -/
def Obligations.IvIsRequestedOnlyByEncCbc : Prop :=
  (∀ (s : State) (j : Job), s.job = some j →
    (j = ⟨.encrypt, 0⟩ ∧ LegalKeyLen s.keyLen.toNat ∧ s.inLen.toNat ≤ s.config.inCap →
      s.engineStep.entropy = s.entropy.tail ∧ s.engineStep.freeCount = s.freeCount + 1) ∧
    (¬(j = ⟨.encrypt, 0⟩ ∧ LegalKeyLen s.keyLen.toNat ∧ s.inLen.toNat ≤ s.config.inCap) →
      s.engineStep.entropy = s.entropy ∧ s.engineStep.freeCount = s.freeCount)) ∧
  (∀ s : State, s.nextDraw = .fail → s.config.rngMayFail = true) ∧
  (∀ (s : State) (v : Vector Byte 16) (rest : List Draw), s.entropy = .iv v :: rest → s.nextDraw = .iv v)

/-- A job's outcome depends on its operands alone: the bytes of the key and the data below the lengths, the lengths, the
command, the mode and the entropy source's answer (R31, R95, R155). -/
def Obligations.JobDependsOnItsOperandsAlone : Prop :=
  ∀ (s s' : State) (j : Job),
    s'.config.inCap = s.config.inCap → s'.keyLen = s.keyLen → s'.inLen = s.inLen → s'.nextDraw = s.nextDraw →
    (∀ i, i < s.keyLen.toNat → s'.keyByte i = s.keyByte i) → (∀ i, i < s.inLen.toNat → s'.inByte i = s.inByte i) →
    s'.jobResult j = s.jobResult j

/-- R165: two ENC.ECB jobs with the same key bytes, key length, input bytes and input length give the same OUT_LEN and OUT
bytes, whatever the entropy source answers. -/
def Obligations.EcbEncryptionIsDeterministic : Prop :=
  ∀ s s' : State,
    s.job = some ⟨.encrypt, 1⟩ → s'.job = some ⟨.encrypt, 1⟩ → s.config.Legal → s'.config = s.config →
    s'.keyLen = s.keyLen → s'.inLen = s.inLen →
    (∀ i, i < s.keyLen.toNat → s'.keyByte i = s.keyByte i) → (∀ i, i < s.inLen.toNat → s'.inByte i = s.inByte i) →
    s'.engineStep.outLen = s.engineStep.outLen ∧ s'.engineStep.result = s.engineStep.result

/-- Two ENC.CBC jobs on the same operands give different envelopes exactly when the two answers of the entropy source
differ (R166). -/
def Obligations.EnvelopesDifferExactlyAsDraws : Prop :=
  ∀ (inCap keyLen inLen : Nat) (keyb inb : Nat → Byte) (v v' : Vector Byte 16),
    LegalKeyLen keyLen → inLen ≤ inCap →
    ∃ e e', encryptJob inCap 0 keyLen keyb inb inLen (.iv v) = .ok e ∧
      encryptJob inCap 0 keyLen keyb inb inLen (.iv v') = .ok e' ∧ (e ≠ e' ↔ v ≠ v')

/-- R164: the length of a successful encrypt's output, ECB and CBC; both are multiples of 16 and at most OUT_CAP. -/
def Obligations.EncryptLengthLaw : Prop :=
  ∀ (s : State) (m : BitVec 2) (out : Bytes), s.config.Legal → s.job = some ⟨.encrypt, m⟩ →
    s.jobResult ⟨.encrypt, m⟩ = .ok out →
    let n := s.engineStep.outLen.toNat
    (m = 1 → n = 16 * (s.inLen.toNat / 16 + 1)) ∧ (m = 0 → n = 16 + 16 * (s.inLen.toNat / 16 + 1)) ∧
    n % 16 = 0 ∧ n ≤ s.config.outCap

/-- R167: for the same IN_LEN a successful ENC.CBC gives an OUT_LEN exactly 16 greater than a successful ENC.ECB. -/
def Obligations.CbcIsSixteenLongerThanEcb : Prop :=
  ∀ (s s' : State) (e e' : Bytes), s.config.Legal → s'.config.Legal → s'.inLen = s.inLen →
    s.job = some ⟨.encrypt, 1⟩ → s'.job = some ⟨.encrypt, 0⟩ →
    s.jobResult ⟨.encrypt, 1⟩ = .ok e → s'.jobResult ⟨.encrypt, 0⟩ = .ok e' →
    s'.engineStep.outLen.toNat = s.engineStep.outLen.toNat + 16

/-- R186: a successful decrypt gives `len(c) - 16 ≤ OUT_LEN ≤ len(c) - 1`. -/
def Obligations.DecryptLengthLaw : Prop :=
  ∀ (s : State) (m : BitVec 2) (p : Bytes), s.config.Legal → s.job = some ⟨.decrypt, m⟩ →
    s.jobResult ⟨.decrypt, m⟩ = .ok p →
    let c := if m = 0 then s.inLen.toNat - 16 else s.inLen.toNat
    c - 16 ≤ s.engineStep.outLen.toNat ∧ s.engineStep.outLen.toNat ≤ c - 1

/-! ## Primitives -/

/-- R123: the cipher and its inverse undo each other on every 16-byte block, for every legal key, so the cipher is a
bijection on blocks. -/
def Obligations.AesInverseLaw : Prop :=
  ∀ k : Bytes, LegalKeyLen k.length →
    (∀ b : Bytes, b.length = 16 → aesDec k (aesEnc k b) = b ∧ aesEnc k (aesDec k b) = b) ∧
    Set.BijOn (aesEnc k) {b | b.length = 16} {b | b.length = 16}

/-- R132: the padding laws (a) to (d). -/
def Obligations.PaddingLaws : Prop :=
  (∀ p : Bytes, (pad p).length = 16 * (p.length / 16 + 1)) ∧
  (∀ p : Bytes, unpad (pad p) = .ok p) ∧
  Function.Injective pad ∧
  (∀ pp : Bytes, 0 < pp.length → pp.length % 16 = 0 →
    ((∃ p, unpad pp = .ok p) ↔
      ∃ (n : Nat) (q : Bytes), 1 ≤ n ∧ n ≤ 16 ∧ pp = q ++ List.replicate n (BitVec.ofNat 8 n)))

/-- Deciphering undoes enciphering in both modes, and both encryptions preserve length (R137 (a) to (c)). -/
def Obligations.ModesInvert : Prop :=
  ∀ k iv pp : Bytes, LegalKeyLen k.length → iv.length = 16 → pp.length % 16 = 0 →
    ecbDec k (ecbEnc k pp) = pp ∧ cbcDec k iv (cbcEnc k iv pp) = pp ∧
    (ecbEnc k pp).length = pp.length ∧ (cbcEnc k iv pp).length = pp.length

/-- R185: the round trip. After a successful encrypt, a decrypt job with the same key bytes, key length and mode, on the
output as input, gives the plaintext, provided the output fits the input buffer; else it ends with LengthError. The proviso
fails exactly when the message is within 16 bytes of IN_CAP (CBC) or fills it (ECB). -/
def Obligations.DecryptUndoesEncrypt : Prop :=
  ∀ (s s' : State) (m : BitVec 2) (e : Bytes),
    s.config.Legal → s'.config = s.config → s.job = some ⟨.encrypt, m⟩ → s.jobResult ⟨.encrypt, m⟩ = .ok e →
    s'.job = some ⟨.decrypt, m⟩ → s'.keyLen = s.keyLen →
    (∀ i, i < s.keyLen.toNat → s'.keyByte i = s.keyByte i) →
    s'.inLen.toNat = e.length → (∀ i, i < e.length → e[i]? = some (s'.inByte i)) →
    (e.length ≤ s.config.inCap →
      s'.engineStep.err = 0 ∧ s'.engineStep.outLen.toNat = s.jobData.length ∧ s'.engineStep.result = s.jobData) ∧
    (s.config.inCap < e.length → s'.engineStep.err = 5 ∧ s'.engineStep.outLen = 0) ∧
    (m = 0 → (s.config.inCap < e.length ↔ s.config.inCap - 16 ≤ s.inLen.toNat)) ∧
    (m = 1 → (s.config.inCap < e.length ↔ s.inLen.toNat = s.config.inCap))

/-- Tampering before the last two cipher blocks, or with the IV of a longer envelope, is never detected: the decrypt still
succeeds, with a text of the same length (R187 (c)). -/
def Obligations.EarlyTamperingIsNotDetected : Prop :=
  ∀ (inCap keyLen inLen : Nat) (keyb inb inb' : Nat → Byte) (p : Bytes),
    decryptJob inCap 0 keyLen keyb inb inLen = .ok p → 48 ≤ inLen →
    (∀ i, inLen - 32 ≤ i → i < inLen → inb' i = inb i) →
    ∃ p', decryptJob inCap 0 keyLen keyb inb' inLen = .ok p' ∧ p'.length = p.length

/-! ## Every step -/

/-- Every step keeps the invariant of the PCE, from every state that has it: parameters in range, ERR codes 0 to 5 only
(R226), OUT_LEN at most OUT_CAP (R27), no byte of a result shown with an error (R154), every visible output byte written
(R32), both buffers canonical and inside their capacity, nothing of an earlier result while busy and MODE held (R150,
R66), reset values while reset is asserted (R260). -/
def Obligations.EveryStepKeepsInv : Prop :=
  ∀ s t : State, Inv s → step s = .next t → Inv t

/-- The reset state has the invariant. -/
def Obligations.ResetStateHasInv : Prop := Inv State.reset

/-- The parameters are configuration: no step changes them (R37); and each step takes one event from the schedule. -/
def Obligations.NoStepChangesTheConfiguration : Prop :=
  ∀ s t : State, step s = .next t → t.config = s.config ∧ t.inputs = s.inputs.tail

/-- What can happen to a pending job in one step: it stays latched and its operands, mode and the cleared result stay; or
it completes by the engine step; or reset is asserted and abandons it (R151, R156, R261). -/
def Obligations.PendingJobIsHeldCompletedOrReset : Prop :=
  ∀ (s t : State) (j : Job), s.job = some j → step s = .next t →
    (t.job = some j ∧ t.key = s.key ∧ t.keyLen = s.keyLen ∧ t.inbuf = s.inbuf ∧ t.inLen = s.inLen ∧ t.mode = s.mode ∧
      t.outbuf = s.outbuf ∧ t.outLen = s.outLen ∧ t.err = s.err ∧ t.epoch = s.epoch) ∨
    (t = State.engineStep { s with inputs := s.inputs.tail } ∧ t.job = none ∧ t.done = true) ∨
    (s.inputs.head? = some (.reset true) ∧ t.job = none ∧ t.done = false ∧ t.outLen = 0)

/-- With no reset to come, a pending job completes within the schedule and one step more: the engine step is taken on the
operands the job was started with. That an exhausted schedule takes it is the model's reading of weak fairness (R157,
log entry 4). -/
def Obligations.PendingJobCompletes : Prop :=
  ∀ (s : State) (j : Job), s.job = some j → s.resetLine = false → (∀ level, Input.reset level ∉ s.inputs) →
    ∃ n t u, n ≤ s.inputs.length ∧ core.run n s = .next t ∧ step t = .next u ∧ t.job = some j ∧ t.key = s.key ∧
      t.keyLen = s.keyLen ∧ t.inbuf = s.inbuf ∧ t.inLen = s.inLen ∧
      u = State.engineStep { t with inputs := t.inputs.tail } ∧ u.job = none ∧ u.done = true

/-- ACC_ERR is set only, while busy, by an aligned 32-bit write of KEY_LEN, IN_LEN, KEY0 to KEY7 or an IN word, or of CTRL
with CMD ≠ 0, and cleared only by writing 1 to STATUS bit 2 or by reset: not by START, completion or ZEROIZE (R242). -/
def Obligations.AccErrIsSticky : Prop :=
  ∀ s t : State, step s = .next t →
    (s.accErr = true → t.accErr = false →
      s.inputs.head? = some (.reset true) ∨
      ∃ v : Word, v.getLsbD 2 = true ∧ s.inputs.head? = some (.bus (s.config.pceBase + 8) 4 true v)) ∧
    (s.accErr = false → t.accErr = true →
      s.job ≠ none ∧ ∃ (addr : Nat) (v : Word) (off : Offset),
        s.inputs.head? = some (.bus addr 4 true v) ∧ windowOffset s.config addr = some off ∧ off.toNat % 4 = 0 ∧
        (locate s.config off = .keyLen ∨ locate s.config off = .inLen ∨ (∃ j, locate s.config off = .key j) ∨
          (∃ j, locate s.config off = .inWord j) ∨ (locate s.config off = .ctrl ∧ cmdField v ≠ 0)))

/-- irq is done ∧ irq_en, and it changes only at a CTRL write, at a STATUS write with bit 1, at a completion or at a reset
(R244, R245). -/
def Obligations.IrqChangesOnlyAtItsControls : Prop :=
  (∀ s : State, s.irq = (s.done && s.irqEn)) ∧
  ∀ s t : State, step s = .next t → t.irq ≠ s.irq →
    (∃ v, s.inputs.head? = some (.bus (s.config.pceBase + 4) 4 true v)) ∨
    (∃ v : Word, v.getLsbD 1 = true ∧ s.inputs.head? = some (.bus (s.config.pceBase + 8) 4 true v)) ∨
    (s.job ≠ none ∧ t = State.engineStep { s with inputs := s.inputs.tail }) ∨
    s.inputs.head? = some (.reset true)

/-! ## Reset -/

/-- Asserting reset puts every register into its value of the table, whatever ran before, a pending job being abandoned
without completion; the buffers hold no known byte; irq is 0; the parameters stay (R36, R260, R261). -/
def Obligations.ResetEntersTheResetState : Prop :=
  ∀ (s : State) (rest : List Input), s.inputs = .reset true :: rest → s.resetLine = false →
    ∃ t, step s = .next t ∧ t.mode = 0 ∧ t.irqEn = false ∧ t.busy = false ∧ t.done = false ∧ t.accErr = false ∧
      t.err = 0 ∧ t.keyLen = 0 ∧ (∀ i : Fin 8, t.key[i] = 0) ∧ t.inLen = 0 ∧ t.outLen = 0 ∧ t.job = none ∧
      (∀ i, t.inbuf.read? i = none) ∧ (∀ i, t.outbuf.read? i = none) ∧ t.irq = false ∧ t.resetLine = true ∧
      t.config = s.config

/-- R262: the reset state is the clean-entry record, with the input buffer unconstrained (no byte of it is known). -/
def Obligations.ResetIsTheCleanEntry : Prop :=
  State.reset.job = none ∧ State.reset.done = false ∧ State.reset.accErr = false ∧ State.reset.err = 0 ∧
  State.reset.key = Vector.replicate 8 0 ∧ State.reset.keyLen = 0 ∧ State.reset.inLen = 0 ∧ State.reset.outLen = 0 ∧
  State.reset.mode = 0 ∧ State.reset.irqEn = false ∧ State.reset.irq = false ∧
  ∀ i, State.reset.inbuf.read? i = none

/-- While reset is asserted no event changes a register, a buffer or the latch, and irq stays 0, in every state that has
the invariant (R260). -/
def Obligations.NothingChangesWhileResetIsAsserted : Prop :=
  ∀ s t : State, Inv s → s.resetLine = true → step s = .next t →
    t.mode = s.mode ∧ t.irqEn = s.irqEn ∧ t.done = s.done ∧ t.accErr = s.accErr ∧ t.err = s.err ∧
    t.keyLen = s.keyLen ∧ t.key = s.key ∧ t.inLen = s.inLen ∧ t.outLen = s.outLen ∧ t.inbuf = s.inbuf ∧
    t.outbuf = s.outbuf ∧ t.job = s.job ∧ t.config = s.config ∧ t.epoch = s.epoch ∧ t.irq = false
end

