-- ==== Sys2Proof/Laws/Aes.lean ====
section
/-! SUPPORT. The laws of the AES core's parts: the S-boxes against their definition and each other, linearity of the
product in GF(2^8), and that each round transformation undoes its inverse. -/

namespace Sys2Proof.Machine

/-- The table of R113 is the algebraic S-box of R113. -/
theorem sbox_eq_formula : ∀ a : Byte, sbox a = sboxFormula a := by decide +kernel

/-- `inv(a)` is the inverse of every `a` but 0 (R111). -/
theorem gmul_ginv : ∀ a : Byte, a ≠ 0 → gmul a (ginv a) = 1 := by decide +kernel

theorem invSbox_sbox : ∀ a : Byte, invSbox (sbox a) = a := by decide +kernel

theorem sbox_invSbox : ∀ a : Byte, sbox (invSbox a) = a := by decide +kernel

theorem xtime_xor (a b : Byte) : xtime (a ^^^ b) = xtime a ^^^ xtime b := by
  unfold xtime
  rw [BitVec.shiftLeft_xor_distrib, BitVec.getLsbD_xor]
  cases a.getLsbD 7 <;> cases b.getLsbD 7 <;> simp [BitVec.xor_assoc]
  all_goals ac_rfl

theorem gmulBits_xor (n : Nat) (a b m : Byte) : gmulBits n (a ^^^ b) m = gmulBits n a m ^^^ gmulBits n b m := by
  induction n generalizing a b m with
  | zero => simp [gmulBits]
  | succ n ih =>
    simp only [gmulBits, xtime_xor, ih]
    cases m.getLsbD 0 <;> simp [BitVec.xor_assoc]
    ac_rfl

/-- The product is linear in its first factor. -/
theorem gmul_xor (a b m : Byte) : gmul (a ^^^ b) m = gmul a m ^^^ gmul b m := gmulBits_xor 8 a b m

theorem xor4_swap (a b c d e f g h i j k l m n o p : Byte) :
    (a ^^^ b ^^^ c ^^^ d) ^^^ (e ^^^ f ^^^ g ^^^ h) ^^^ (i ^^^ j ^^^ k ^^^ l) ^^^ (m ^^^ n ^^^ o ^^^ p) =
    (a ^^^ h ^^^ k ^^^ n) ^^^ (b ^^^ e ^^^ l ^^^ o) ^^^ (c ^^^ f ^^^ i ^^^ p) ^^^ (d ^^^ g ^^^ j ^^^ m) := by
  ac_rfl

/-- The coefficient sums of InvMixColumns after MixColumns: one on the byte itself, none on the three others. -/
theorem invMix_mix_coeff : ∀ a : Byte,
    gmul (gmul a 2) 0xE ^^^ gmul (gmul a 1) 0xB ^^^ gmul (gmul a 1) 0xD ^^^ gmul (gmul a 3) 9 = a ∧
    gmul (gmul a 3) 0xE ^^^ gmul (gmul a 2) 0xB ^^^ gmul (gmul a 1) 0xD ^^^ gmul (gmul a 1) 9 = 0 ∧
    gmul (gmul a 1) 0xE ^^^ gmul (gmul a 3) 0xB ^^^ gmul (gmul a 2) 0xD ^^^ gmul (gmul a 1) 9 = 0 ∧
    gmul (gmul a 1) 0xE ^^^ gmul (gmul a 1) 0xB ^^^ gmul (gmul a 3) 0xD ^^^ gmul (gmul a 2) 9 = 0 := by
  decide +kernel

theorem mix_invMix_coeff : ∀ a : Byte,
    gmul (gmul a 0xE) 2 ^^^ gmul (gmul a 9) 3 ^^^ gmul (gmul a 0xD) 1 ^^^ gmul (gmul a 0xB) 1 = a ∧
    gmul (gmul a 0xB) 2 ^^^ gmul (gmul a 0xE) 3 ^^^ gmul (gmul a 9) 1 ^^^ gmul (gmul a 0xD) 1 = 0 ∧
    gmul (gmul a 0xD) 2 ^^^ gmul (gmul a 0xB) 3 ^^^ gmul (gmul a 0xE) 1 ^^^ gmul (gmul a 9) 1 = 0 ∧
    gmul (gmul a 9) 2 ^^^ gmul (gmul a 0xD) 3 ^^^ gmul (gmul a 0xB) 1 ^^^ gmul (gmul a 0xE) 1 = 0 := by
  decide +kernel

theorem invMix_mix_byte (a b c d : Byte) :
    mixByte 0x0E 0x0B 0x0D 0x09 (mixByte 2 3 1 1 a b c d) (mixByte 2 3 1 1 b c d a) (mixByte 2 3 1 1 c d a b)
      (mixByte 2 3 1 1 d a b c) = a := by
  have ha := (invMix_mix_coeff a).1
  have hb := (invMix_mix_coeff b).2.1
  have hc := (invMix_mix_coeff c).2.2.1
  have hd := (invMix_mix_coeff d).2.2.2
  simp only [mixByte, gmul_xor]
  rw [xor4_swap, ha, hb, hc, hd]
  simp

theorem mix_invMix_byte (a b c d : Byte) :
    mixByte 2 3 1 1 (mixByte 0x0E 0x0B 0x0D 0x09 a b c d) (mixByte 0x0E 0x0B 0x0D 0x09 b c d a)
      (mixByte 0x0E 0x0B 0x0D 0x09 c d a b) (mixByte 0x0E 0x0B 0x0D 0x09 d a b c) = a := by
  have ha := (mix_invMix_coeff a).1
  have hb := (mix_invMix_coeff b).2.1
  have hc := (mix_invMix_coeff c).2.2.1
  have hd := (mix_invMix_coeff d).2.2.2
  simp only [mixByte, gmul_xor]
  rw [xor4_swap, ha, hb, hc, hd]
  simp

theorem invMixColumn_mixColumn (x : Col) : invMixColumn (mixColumn x) = x := by
  simp only [invMixColumn, mixColumn, mixWith, invMix_mix_byte]

theorem mixColumn_invMixColumn (x : Col) : mixColumn (invMixColumn x) = x := by
  simp only [invMixColumn, mixColumn, mixWith, mix_invMix_byte]

theorem invShiftRows_shiftRows (s : Grid) : invShiftRows (shiftRows s) = s := rfl

theorem shiftRows_invShiftRows (s : Grid) : shiftRows (invShiftRows s) = s := rfl

theorem Grid.map_map (f g : Col → Col) (s : Grid) : (s.map f).map g = s.map fun x => g (f x) := rfl

theorem Grid.map_id_of {f : Col → Col} (h : ∀ x, f x = x) (s : Grid) : s.map f = s := by
  cases s; simp [Grid.map, h]

theorem invSubBytes_subBytes (s : Grid) : invSubBytes (subBytes s) = s := by
  unfold invSubBytes subBytes
  rw [Grid.map_map]
  exact Grid.map_id_of (fun x => by cases x; simp [Col.map, invSbox_sbox]) s

theorem subBytes_invSubBytes (s : Grid) : subBytes (invSubBytes s) = s := by
  unfold invSubBytes subBytes
  rw [Grid.map_map]
  exact Grid.map_id_of (fun x => by cases x; simp [Col.map, sbox_invSbox]) s

theorem invMix_mix (s : Grid) : (s.map mixColumn).map invMixColumn = s := by
  rw [Grid.map_map]; exact Grid.map_id_of invMixColumn_mixColumn s

theorem mix_invMix (s : Grid) : (s.map invMixColumn).map mixColumn = s := by
  rw [Grid.map_map]; exact Grid.map_id_of mixColumn_invMixColumn s

theorem Col.xor_xor (x k : Col) : (x.xor k).xor k = x := by
  cases x; cases k; simp [Col.xor]

/-- AddRoundKey is its own inverse (R119). -/
theorem addRoundKey_twice (k s : Grid) : addRoundKey k (addRoundKey k s) = s := by
  cases s; simp [addRoundKey, Col.xor_xor]

theorem storeBlock_length (s : Grid) : (storeBlock s).length = 16 := rfl

theorem loadBlock_storeBlock (s : Grid) : loadBlock (storeBlock s) = s := rfl

theorem storeBlock_loadBlock {b : Bytes} (h : b.length = 16) : storeBlock (loadBlock b) = b := by
  refine List.ext_getElem (by rw [storeBlock_length, h]) fun i h1 h2 => ?_
  have h3 : i < 16 := h1
  interval_cases i <;> simp [storeBlock, loadBlock, Col.ofBytes, Col.bytes, h]

theorem cipherWith_length {rks : List Grid} {b : Bytes} (h : b.length = 16) : (cipherWith rks b).length = 16 := by
  cases rks
  · exact h
  · exact storeBlock_length _

theorem invCipherWith_length {rks : List Grid} {b : Bytes} (h : b.length = 16) :
    (invCipherWith rks b).length = 16 := by
  cases rks
  · exact h
  · exact storeBlock_length _

theorem aesEnc_length (k : Bytes) {b : Bytes} (h : b.length = 16) : (aesEnc k b).length = 16 := cipherWith_length h

theorem aesDec_length (k : Bytes) {b : Bytes} (h : b.length = 16) : (aesDec k b).length = 16 := invCipherWith_length h

end Sys2Proof.Machine
end

