-- ==== Sys2Proof/Laws/State.lean ====
section
/-! SUPPORT. One lemma per field per update of the state, so that no proof unfolds a record update. -/

namespace Sys2Proof.Machine

/-! `State.respond` -/

@[simp] theorem State.respond_mode (s : State) (r : Response) : (s.respond r).mode = s.mode := rfl
@[simp] theorem State.respond_irqEn (s : State) (r : Response) : (s.respond r).irqEn = s.irqEn := rfl
@[simp] theorem State.respond_done (s : State) (r : Response) : (s.respond r).done = s.done := rfl
@[simp] theorem State.respond_accErr (s : State) (r : Response) : (s.respond r).accErr = s.accErr := rfl
@[simp] theorem State.respond_err (s : State) (r : Response) : (s.respond r).err = s.err := rfl
@[simp] theorem State.respond_keyLen (s : State) (r : Response) : (s.respond r).keyLen = s.keyLen := rfl
@[simp] theorem State.respond_key (s : State) (r : Response) : (s.respond r).key = s.key := rfl
@[simp] theorem State.respond_inLen (s : State) (r : Response) : (s.respond r).inLen = s.inLen := rfl
@[simp] theorem State.respond_outLen (s : State) (r : Response) : (s.respond r).outLen = s.outLen := rfl
@[simp] theorem State.respond_inbuf (s : State) (r : Response) : (s.respond r).inbuf = s.inbuf := rfl
@[simp] theorem State.respond_outbuf (s : State) (r : Response) : (s.respond r).outbuf = s.outbuf := rfl
@[simp] theorem State.respond_job (s : State) (r : Response) : (s.respond r).job = s.job := rfl
@[simp] theorem State.respond_resetLine (s : State) (r : Response) : (s.respond r).resetLine = s.resetLine := rfl
@[simp] theorem State.respond_config (s : State) (r : Response) : (s.respond r).config = s.config := rfl
@[simp] theorem State.respond_inputs (s : State) (r : Response) : (s.respond r).inputs = s.inputs := rfl
@[simp] theorem State.respond_entropy (s : State) (r : Response) : (s.respond r).entropy = s.entropy := rfl
@[simp] theorem State.respond_response (s : State) (r : Response) : (s.respond r).response = some r := rfl
@[simp] theorem State.respond_epoch (s : State) (r : Response) : (s.respond r).epoch = s.epoch := rfl
@[simp] theorem State.respond_freeCount (s : State) (r : Response) : (s.respond r).freeCount = s.freeCount := rfl

/-! `State.start` -/

@[simp] theorem State.start_mode (s : State) (c : Cmd) (m : BitVec 2) (q : Bool) : (s.start c m q).mode = m := rfl
@[simp] theorem State.start_irqEn (s : State) (c : Cmd) (m : BitVec 2) (q : Bool) : (s.start c m q).irqEn = q := rfl
@[simp] theorem State.start_done (s : State) (c : Cmd) (m : BitVec 2) (q : Bool) : (s.start c m q).done = false := rfl
@[simp] theorem State.start_accErr (s : State) (c : Cmd) (m : BitVec 2) (q : Bool) : (s.start c m q).accErr = s.accErr := rfl
@[simp] theorem State.start_err (s : State) (c : Cmd) (m : BitVec 2) (q : Bool) : (s.start c m q).err = 0 := rfl
@[simp] theorem State.start_keyLen (s : State) (c : Cmd) (m : BitVec 2) (q : Bool) : (s.start c m q).keyLen = s.keyLen := rfl
@[simp] theorem State.start_key (s : State) (c : Cmd) (m : BitVec 2) (q : Bool) : (s.start c m q).key = s.key := rfl
@[simp] theorem State.start_inLen (s : State) (c : Cmd) (m : BitVec 2) (q : Bool) : (s.start c m q).inLen = s.inLen := rfl
@[simp] theorem State.start_outLen (s : State) (c : Cmd) (m : BitVec 2) (q : Bool) : (s.start c m q).outLen = 0 := rfl
@[simp] theorem State.start_inbuf (s : State) (c : Cmd) (m : BitVec 2) (q : Bool) : (s.start c m q).inbuf = s.inbuf := rfl
@[simp] theorem State.start_outbuf (s : State) (c : Cmd) (m : BitVec 2) (q : Bool) : (s.start c m q).outbuf = s.outbuf := rfl
@[simp] theorem State.start_job (s : State) (c : Cmd) (m : BitVec 2) (q : Bool) : (s.start c m q).job = some ⟨c, m⟩ := rfl
@[simp] theorem State.start_resetLine (s : State) (c : Cmd) (m : BitVec 2) (q : Bool) : (s.start c m q).resetLine = s.resetLine := rfl
@[simp] theorem State.start_config (s : State) (c : Cmd) (m : BitVec 2) (q : Bool) : (s.start c m q).config = s.config := rfl
@[simp] theorem State.start_inputs (s : State) (c : Cmd) (m : BitVec 2) (q : Bool) : (s.start c m q).inputs = s.inputs := rfl
@[simp] theorem State.start_entropy (s : State) (c : Cmd) (m : BitVec 2) (q : Bool) : (s.start c m q).entropy = s.entropy := rfl
@[simp] theorem State.start_response (s : State) (c : Cmd) (m : BitVec 2) (q : Bool) : (s.start c m q).response = s.response := rfl
@[simp] theorem State.start_epoch (s : State) (c : Cmd) (m : BitVec 2) (q : Bool) : (s.start c m q).epoch = s.epoch := rfl
@[simp] theorem State.start_freeCount (s : State) (c : Cmd) (m : BitVec 2) (q : Bool) : (s.start c m q).freeCount = s.freeCount := rfl

/-! `State.refuseCommand` -/

@[simp] theorem State.refuseCommand_mode (s : State) (q : Bool) : (s.refuseCommand q).mode = s.mode := rfl
@[simp] theorem State.refuseCommand_irqEn (s : State) (q : Bool) : (s.refuseCommand q).irqEn = q := rfl
@[simp] theorem State.refuseCommand_done (s : State) (q : Bool) : (s.refuseCommand q).done = s.done := rfl
@[simp] theorem State.refuseCommand_accErr (s : State) (q : Bool) : (s.refuseCommand q).accErr = true := rfl
@[simp] theorem State.refuseCommand_err (s : State) (q : Bool) : (s.refuseCommand q).err = s.err := rfl
@[simp] theorem State.refuseCommand_keyLen (s : State) (q : Bool) : (s.refuseCommand q).keyLen = s.keyLen := rfl
@[simp] theorem State.refuseCommand_key (s : State) (q : Bool) : (s.refuseCommand q).key = s.key := rfl
@[simp] theorem State.refuseCommand_inLen (s : State) (q : Bool) : (s.refuseCommand q).inLen = s.inLen := rfl
@[simp] theorem State.refuseCommand_outLen (s : State) (q : Bool) : (s.refuseCommand q).outLen = s.outLen := rfl
@[simp] theorem State.refuseCommand_inbuf (s : State) (q : Bool) : (s.refuseCommand q).inbuf = s.inbuf := rfl
@[simp] theorem State.refuseCommand_outbuf (s : State) (q : Bool) : (s.refuseCommand q).outbuf = s.outbuf := rfl
@[simp] theorem State.refuseCommand_job (s : State) (q : Bool) : (s.refuseCommand q).job = s.job := rfl
@[simp] theorem State.refuseCommand_resetLine (s : State) (q : Bool) : (s.refuseCommand q).resetLine = s.resetLine := rfl
@[simp] theorem State.refuseCommand_config (s : State) (q : Bool) : (s.refuseCommand q).config = s.config := rfl
@[simp] theorem State.refuseCommand_inputs (s : State) (q : Bool) : (s.refuseCommand q).inputs = s.inputs := rfl
@[simp] theorem State.refuseCommand_entropy (s : State) (q : Bool) : (s.refuseCommand q).entropy = s.entropy := rfl
@[simp] theorem State.refuseCommand_response (s : State) (q : Bool) : (s.refuseCommand q).response = s.response := rfl
@[simp] theorem State.refuseCommand_epoch (s : State) (q : Bool) : (s.refuseCommand q).epoch = s.epoch := rfl
@[simp] theorem State.refuseCommand_freeCount (s : State) (q : Bool) : (s.refuseCommand q).freeCount = s.freeCount := rfl

/-! `State.refuseOperand` -/

@[simp] theorem State.refuseOperand_mode (s : State) : (s.refuseOperand).mode = s.mode := rfl
@[simp] theorem State.refuseOperand_irqEn (s : State) : (s.refuseOperand).irqEn = s.irqEn := rfl
@[simp] theorem State.refuseOperand_done (s : State) : (s.refuseOperand).done = s.done := rfl
@[simp] theorem State.refuseOperand_accErr (s : State) : (s.refuseOperand).accErr = true := rfl
@[simp] theorem State.refuseOperand_err (s : State) : (s.refuseOperand).err = s.err := rfl
@[simp] theorem State.refuseOperand_keyLen (s : State) : (s.refuseOperand).keyLen = s.keyLen := rfl
@[simp] theorem State.refuseOperand_key (s : State) : (s.refuseOperand).key = s.key := rfl
@[simp] theorem State.refuseOperand_inLen (s : State) : (s.refuseOperand).inLen = s.inLen := rfl
@[simp] theorem State.refuseOperand_outLen (s : State) : (s.refuseOperand).outLen = s.outLen := rfl
@[simp] theorem State.refuseOperand_inbuf (s : State) : (s.refuseOperand).inbuf = s.inbuf := rfl
@[simp] theorem State.refuseOperand_outbuf (s : State) : (s.refuseOperand).outbuf = s.outbuf := rfl
@[simp] theorem State.refuseOperand_job (s : State) : (s.refuseOperand).job = s.job := rfl
@[simp] theorem State.refuseOperand_resetLine (s : State) : (s.refuseOperand).resetLine = s.resetLine := rfl
@[simp] theorem State.refuseOperand_config (s : State) : (s.refuseOperand).config = s.config := rfl
@[simp] theorem State.refuseOperand_inputs (s : State) : (s.refuseOperand).inputs = s.inputs := rfl
@[simp] theorem State.refuseOperand_entropy (s : State) : (s.refuseOperand).entropy = s.entropy := rfl
@[simp] theorem State.refuseOperand_response (s : State) : (s.refuseOperand).response = s.response := rfl
@[simp] theorem State.refuseOperand_epoch (s : State) : (s.refuseOperand).epoch = s.epoch := rfl
@[simp] theorem State.refuseOperand_freeCount (s : State) : (s.refuseOperand).freeCount = s.freeCount := rfl

/-! `State.storeCtrl` -/

@[simp] theorem State.storeCtrl_mode (s : State) (m : BitVec 2) (q : Bool) : (s.storeCtrl m q).mode = m := rfl
@[simp] theorem State.storeCtrl_irqEn (s : State) (m : BitVec 2) (q : Bool) : (s.storeCtrl m q).irqEn = q := rfl
@[simp] theorem State.storeCtrl_done (s : State) (m : BitVec 2) (q : Bool) : (s.storeCtrl m q).done = s.done := rfl
@[simp] theorem State.storeCtrl_accErr (s : State) (m : BitVec 2) (q : Bool) : (s.storeCtrl m q).accErr = s.accErr := rfl
@[simp] theorem State.storeCtrl_err (s : State) (m : BitVec 2) (q : Bool) : (s.storeCtrl m q).err = s.err := rfl
@[simp] theorem State.storeCtrl_keyLen (s : State) (m : BitVec 2) (q : Bool) : (s.storeCtrl m q).keyLen = s.keyLen := rfl
@[simp] theorem State.storeCtrl_key (s : State) (m : BitVec 2) (q : Bool) : (s.storeCtrl m q).key = s.key := rfl
@[simp] theorem State.storeCtrl_inLen (s : State) (m : BitVec 2) (q : Bool) : (s.storeCtrl m q).inLen = s.inLen := rfl
@[simp] theorem State.storeCtrl_outLen (s : State) (m : BitVec 2) (q : Bool) : (s.storeCtrl m q).outLen = s.outLen := rfl
@[simp] theorem State.storeCtrl_inbuf (s : State) (m : BitVec 2) (q : Bool) : (s.storeCtrl m q).inbuf = s.inbuf := rfl
@[simp] theorem State.storeCtrl_outbuf (s : State) (m : BitVec 2) (q : Bool) : (s.storeCtrl m q).outbuf = s.outbuf := rfl
@[simp] theorem State.storeCtrl_job (s : State) (m : BitVec 2) (q : Bool) : (s.storeCtrl m q).job = s.job := rfl
@[simp] theorem State.storeCtrl_resetLine (s : State) (m : BitVec 2) (q : Bool) : (s.storeCtrl m q).resetLine = s.resetLine := rfl
@[simp] theorem State.storeCtrl_config (s : State) (m : BitVec 2) (q : Bool) : (s.storeCtrl m q).config = s.config := rfl
@[simp] theorem State.storeCtrl_inputs (s : State) (m : BitVec 2) (q : Bool) : (s.storeCtrl m q).inputs = s.inputs := rfl
@[simp] theorem State.storeCtrl_entropy (s : State) (m : BitVec 2) (q : Bool) : (s.storeCtrl m q).entropy = s.entropy := rfl
@[simp] theorem State.storeCtrl_response (s : State) (m : BitVec 2) (q : Bool) : (s.storeCtrl m q).response = s.response := rfl
@[simp] theorem State.storeCtrl_epoch (s : State) (m : BitVec 2) (q : Bool) : (s.storeCtrl m q).epoch = s.epoch := rfl
@[simp] theorem State.storeCtrl_freeCount (s : State) (m : BitVec 2) (q : Bool) : (s.storeCtrl m q).freeCount = s.freeCount := rfl

/-! `State.storeIrqEn` -/

@[simp] theorem State.storeIrqEn_mode (s : State) (q : Bool) : (s.storeIrqEn q).mode = s.mode := rfl
@[simp] theorem State.storeIrqEn_irqEn (s : State) (q : Bool) : (s.storeIrqEn q).irqEn = q := rfl
@[simp] theorem State.storeIrqEn_done (s : State) (q : Bool) : (s.storeIrqEn q).done = s.done := rfl
@[simp] theorem State.storeIrqEn_accErr (s : State) (q : Bool) : (s.storeIrqEn q).accErr = s.accErr := rfl
@[simp] theorem State.storeIrqEn_err (s : State) (q : Bool) : (s.storeIrqEn q).err = s.err := rfl
@[simp] theorem State.storeIrqEn_keyLen (s : State) (q : Bool) : (s.storeIrqEn q).keyLen = s.keyLen := rfl
@[simp] theorem State.storeIrqEn_key (s : State) (q : Bool) : (s.storeIrqEn q).key = s.key := rfl
@[simp] theorem State.storeIrqEn_inLen (s : State) (q : Bool) : (s.storeIrqEn q).inLen = s.inLen := rfl
@[simp] theorem State.storeIrqEn_outLen (s : State) (q : Bool) : (s.storeIrqEn q).outLen = s.outLen := rfl
@[simp] theorem State.storeIrqEn_inbuf (s : State) (q : Bool) : (s.storeIrqEn q).inbuf = s.inbuf := rfl
@[simp] theorem State.storeIrqEn_outbuf (s : State) (q : Bool) : (s.storeIrqEn q).outbuf = s.outbuf := rfl
@[simp] theorem State.storeIrqEn_job (s : State) (q : Bool) : (s.storeIrqEn q).job = s.job := rfl
@[simp] theorem State.storeIrqEn_resetLine (s : State) (q : Bool) : (s.storeIrqEn q).resetLine = s.resetLine := rfl
@[simp] theorem State.storeIrqEn_config (s : State) (q : Bool) : (s.storeIrqEn q).config = s.config := rfl
@[simp] theorem State.storeIrqEn_inputs (s : State) (q : Bool) : (s.storeIrqEn q).inputs = s.inputs := rfl
@[simp] theorem State.storeIrqEn_entropy (s : State) (q : Bool) : (s.storeIrqEn q).entropy = s.entropy := rfl
@[simp] theorem State.storeIrqEn_response (s : State) (q : Bool) : (s.storeIrqEn q).response = s.response := rfl
@[simp] theorem State.storeIrqEn_epoch (s : State) (q : Bool) : (s.storeIrqEn q).epoch = s.epoch := rfl
@[simp] theorem State.storeIrqEn_freeCount (s : State) (q : Bool) : (s.storeIrqEn q).freeCount = s.freeCount := rfl

/-! `State.finishOk` -/

@[simp] theorem State.finishOk_mode (s : State) (out : Bytes) : (s.finishOk out).mode = s.mode := rfl
@[simp] theorem State.finishOk_irqEn (s : State) (out : Bytes) : (s.finishOk out).irqEn = s.irqEn := rfl
@[simp] theorem State.finishOk_done (s : State) (out : Bytes) : (s.finishOk out).done = true := rfl
@[simp] theorem State.finishOk_accErr (s : State) (out : Bytes) : (s.finishOk out).accErr = s.accErr := rfl
@[simp] theorem State.finishOk_err (s : State) (out : Bytes) : (s.finishOk out).err = 0 := rfl
@[simp] theorem State.finishOk_keyLen (s : State) (out : Bytes) : (s.finishOk out).keyLen = s.keyLen := rfl
@[simp] theorem State.finishOk_key (s : State) (out : Bytes) : (s.finishOk out).key = s.key := rfl
@[simp] theorem State.finishOk_inLen (s : State) (out : Bytes) : (s.finishOk out).inLen = s.inLen := rfl
@[simp] theorem State.finishOk_outLen (s : State) (out : Bytes) : (s.finishOk out).outLen = BitVec.ofNat 32 out.length := rfl
@[simp] theorem State.finishOk_inbuf (s : State) (out : Bytes) : (s.finishOk out).inbuf = s.inbuf := rfl
@[simp] theorem State.finishOk_outbuf (s : State) (out : Bytes) : (s.finishOk out).outbuf = s.outbuf.store 0 out := rfl
@[simp] theorem State.finishOk_job (s : State) (out : Bytes) : (s.finishOk out).job = none := rfl
@[simp] theorem State.finishOk_resetLine (s : State) (out : Bytes) : (s.finishOk out).resetLine = s.resetLine := rfl
@[simp] theorem State.finishOk_config (s : State) (out : Bytes) : (s.finishOk out).config = s.config := rfl
@[simp] theorem State.finishOk_inputs (s : State) (out : Bytes) : (s.finishOk out).inputs = s.inputs := rfl
@[simp] theorem State.finishOk_entropy (s : State) (out : Bytes) : (s.finishOk out).entropy = s.entropy := rfl
@[simp] theorem State.finishOk_response (s : State) (out : Bytes) : (s.finishOk out).response = s.response := rfl
@[simp] theorem State.finishOk_epoch (s : State) (out : Bytes) : (s.finishOk out).epoch = s.epoch := rfl
@[simp] theorem State.finishOk_freeCount (s : State) (out : Bytes) : (s.finishOk out).freeCount = s.freeCount := rfl

/-! `State.finishErr` -/

@[simp] theorem State.finishErr_mode (s : State) (k : ErrorKind) : (s.finishErr k).mode = s.mode := rfl
@[simp] theorem State.finishErr_irqEn (s : State) (k : ErrorKind) : (s.finishErr k).irqEn = s.irqEn := rfl
@[simp] theorem State.finishErr_done (s : State) (k : ErrorKind) : (s.finishErr k).done = true := rfl
@[simp] theorem State.finishErr_accErr (s : State) (k : ErrorKind) : (s.finishErr k).accErr = s.accErr := rfl
@[simp] theorem State.finishErr_err (s : State) (k : ErrorKind) : (s.finishErr k).err = k.code := rfl
@[simp] theorem State.finishErr_keyLen (s : State) (k : ErrorKind) : (s.finishErr k).keyLen = s.keyLen := rfl
@[simp] theorem State.finishErr_key (s : State) (k : ErrorKind) : (s.finishErr k).key = s.key := rfl
@[simp] theorem State.finishErr_inLen (s : State) (k : ErrorKind) : (s.finishErr k).inLen = s.inLen := rfl
@[simp] theorem State.finishErr_outLen (s : State) (k : ErrorKind) : (s.finishErr k).outLen = 0 := rfl
@[simp] theorem State.finishErr_inbuf (s : State) (k : ErrorKind) : (s.finishErr k).inbuf = s.inbuf := rfl
@[simp] theorem State.finishErr_outbuf (s : State) (k : ErrorKind) : (s.finishErr k).outbuf = s.outbuf := rfl
@[simp] theorem State.finishErr_job (s : State) (k : ErrorKind) : (s.finishErr k).job = none := rfl
@[simp] theorem State.finishErr_resetLine (s : State) (k : ErrorKind) : (s.finishErr k).resetLine = s.resetLine := rfl
@[simp] theorem State.finishErr_config (s : State) (k : ErrorKind) : (s.finishErr k).config = s.config := rfl
@[simp] theorem State.finishErr_inputs (s : State) (k : ErrorKind) : (s.finishErr k).inputs = s.inputs := rfl
@[simp] theorem State.finishErr_entropy (s : State) (k : ErrorKind) : (s.finishErr k).entropy = s.entropy := rfl
@[simp] theorem State.finishErr_response (s : State) (k : ErrorKind) : (s.finishErr k).response = s.response := rfl
@[simp] theorem State.finishErr_epoch (s : State) (k : ErrorKind) : (s.finishErr k).epoch = s.epoch := rfl
@[simp] theorem State.finishErr_freeCount (s : State) (k : ErrorKind) : (s.finishErr k).freeCount = s.freeCount := rfl

/-! `State.clearOperands` -/

@[simp] theorem State.clearOperands_mode (s : State) : (s.clearOperands).mode = s.mode := rfl
@[simp] theorem State.clearOperands_irqEn (s : State) : (s.clearOperands).irqEn = s.irqEn := rfl
@[simp] theorem State.clearOperands_done (s : State) : (s.clearOperands).done = s.done := rfl
@[simp] theorem State.clearOperands_accErr (s : State) : (s.clearOperands).accErr = s.accErr := rfl
@[simp] theorem State.clearOperands_err (s : State) : (s.clearOperands).err = s.err := rfl
@[simp] theorem State.clearOperands_keyLen (s : State) : (s.clearOperands).keyLen = 0 := rfl
@[simp] theorem State.clearOperands_key (s : State) : (s.clearOperands).key = Vector.replicate 8 0 := rfl
@[simp] theorem State.clearOperands_inLen (s : State) : (s.clearOperands).inLen = 0 := rfl
@[simp] theorem State.clearOperands_outLen (s : State) : (s.clearOperands).outLen = s.outLen := rfl
@[simp] theorem State.clearOperands_inbuf (s : State) : (s.clearOperands).inbuf = Memory.zeros s.config.inCap := rfl
@[simp] theorem State.clearOperands_outbuf (s : State) : (s.clearOperands).outbuf = Memory.zeros s.config.outCap := rfl
@[simp] theorem State.clearOperands_job (s : State) : (s.clearOperands).job = s.job := rfl
@[simp] theorem State.clearOperands_resetLine (s : State) : (s.clearOperands).resetLine = s.resetLine := rfl
@[simp] theorem State.clearOperands_config (s : State) : (s.clearOperands).config = s.config := rfl
@[simp] theorem State.clearOperands_inputs (s : State) : (s.clearOperands).inputs = s.inputs := rfl
@[simp] theorem State.clearOperands_entropy (s : State) : (s.clearOperands).entropy = s.entropy := rfl
@[simp] theorem State.clearOperands_response (s : State) : (s.clearOperands).response = s.response := rfl
@[simp] theorem State.clearOperands_epoch (s : State) : (s.clearOperands).epoch = s.epoch := rfl
@[simp] theorem State.clearOperands_freeCount (s : State) : (s.clearOperands).freeCount = s.freeCount := rfl

/-! `State.acknowledge` -/

@[simp] theorem State.acknowledge_mode (s : State) (v : Word) : (s.acknowledge v).mode = s.mode := rfl
@[simp] theorem State.acknowledge_irqEn (s : State) (v : Word) : (s.acknowledge v).irqEn = s.irqEn := rfl
@[simp] theorem State.acknowledge_done (s : State) (v : Word) : (s.acknowledge v).done = (s.done && !v.getLsbD 1) := rfl
@[simp] theorem State.acknowledge_accErr (s : State) (v : Word) : (s.acknowledge v).accErr = (s.accErr && !v.getLsbD 2) := rfl
@[simp] theorem State.acknowledge_err (s : State) (v : Word) : (s.acknowledge v).err = s.err := rfl
@[simp] theorem State.acknowledge_keyLen (s : State) (v : Word) : (s.acknowledge v).keyLen = s.keyLen := rfl
@[simp] theorem State.acknowledge_key (s : State) (v : Word) : (s.acknowledge v).key = s.key := rfl
@[simp] theorem State.acknowledge_inLen (s : State) (v : Word) : (s.acknowledge v).inLen = s.inLen := rfl
@[simp] theorem State.acknowledge_outLen (s : State) (v : Word) : (s.acknowledge v).outLen = s.outLen := rfl
@[simp] theorem State.acknowledge_inbuf (s : State) (v : Word) : (s.acknowledge v).inbuf = s.inbuf := rfl
@[simp] theorem State.acknowledge_outbuf (s : State) (v : Word) : (s.acknowledge v).outbuf = s.outbuf := rfl
@[simp] theorem State.acknowledge_job (s : State) (v : Word) : (s.acknowledge v).job = s.job := rfl
@[simp] theorem State.acknowledge_resetLine (s : State) (v : Word) : (s.acknowledge v).resetLine = s.resetLine := rfl
@[simp] theorem State.acknowledge_config (s : State) (v : Word) : (s.acknowledge v).config = s.config := rfl
@[simp] theorem State.acknowledge_inputs (s : State) (v : Word) : (s.acknowledge v).inputs = s.inputs := rfl
@[simp] theorem State.acknowledge_entropy (s : State) (v : Word) : (s.acknowledge v).entropy = s.entropy := rfl
@[simp] theorem State.acknowledge_response (s : State) (v : Word) : (s.acknowledge v).response = s.response := rfl
@[simp] theorem State.acknowledge_epoch (s : State) (v : Word) : (s.acknowledge v).epoch = s.epoch := rfl
@[simp] theorem State.acknowledge_freeCount (s : State) (v : Word) : (s.acknowledge v).freeCount = s.freeCount := rfl

/-! `State.consumeDraw` -/

@[simp] theorem State.consumeDraw_mode (s : State) : (s.consumeDraw).mode = s.mode := rfl
@[simp] theorem State.consumeDraw_irqEn (s : State) : (s.consumeDraw).irqEn = s.irqEn := rfl
@[simp] theorem State.consumeDraw_done (s : State) : (s.consumeDraw).done = s.done := rfl
@[simp] theorem State.consumeDraw_accErr (s : State) : (s.consumeDraw).accErr = s.accErr := rfl
@[simp] theorem State.consumeDraw_err (s : State) : (s.consumeDraw).err = s.err := rfl
@[simp] theorem State.consumeDraw_keyLen (s : State) : (s.consumeDraw).keyLen = s.keyLen := rfl
@[simp] theorem State.consumeDraw_key (s : State) : (s.consumeDraw).key = s.key := rfl
@[simp] theorem State.consumeDraw_inLen (s : State) : (s.consumeDraw).inLen = s.inLen := rfl
@[simp] theorem State.consumeDraw_outLen (s : State) : (s.consumeDraw).outLen = s.outLen := rfl
@[simp] theorem State.consumeDraw_inbuf (s : State) : (s.consumeDraw).inbuf = s.inbuf := rfl
@[simp] theorem State.consumeDraw_outbuf (s : State) : (s.consumeDraw).outbuf = s.outbuf := rfl
@[simp] theorem State.consumeDraw_job (s : State) : (s.consumeDraw).job = s.job := rfl
@[simp] theorem State.consumeDraw_resetLine (s : State) : (s.consumeDraw).resetLine = s.resetLine := rfl
@[simp] theorem State.consumeDraw_config (s : State) : (s.consumeDraw).config = s.config := rfl
@[simp] theorem State.consumeDraw_inputs (s : State) : (s.consumeDraw).inputs = s.inputs := rfl
@[simp] theorem State.consumeDraw_entropy (s : State) : (s.consumeDraw).entropy = s.entropy.tail := rfl
@[simp] theorem State.consumeDraw_response (s : State) : (s.consumeDraw).response = s.response := rfl
@[simp] theorem State.consumeDraw_epoch (s : State) : (s.consumeDraw).epoch = s.epoch := rfl
@[simp] theorem State.consumeDraw_freeCount (s : State) : (s.consumeDraw).freeCount = s.freeCount + 1 := rfl

/-! `State.assertReset` -/

@[simp] theorem State.assertReset_mode (s : State) : (s.assertReset).mode = 0 := rfl
@[simp] theorem State.assertReset_irqEn (s : State) : (s.assertReset).irqEn = false := rfl
@[simp] theorem State.assertReset_done (s : State) : (s.assertReset).done = false := rfl
@[simp] theorem State.assertReset_accErr (s : State) : (s.assertReset).accErr = false := rfl
@[simp] theorem State.assertReset_err (s : State) : (s.assertReset).err = 0 := rfl
@[simp] theorem State.assertReset_keyLen (s : State) : (s.assertReset).keyLen = 0 := rfl
@[simp] theorem State.assertReset_key (s : State) : (s.assertReset).key = Vector.replicate 8 0 := rfl
@[simp] theorem State.assertReset_inLen (s : State) : (s.assertReset).inLen = 0 := rfl
@[simp] theorem State.assertReset_outLen (s : State) : (s.assertReset).outLen = 0 := rfl
@[simp] theorem State.assertReset_inbuf (s : State) : (s.assertReset).inbuf = [] := rfl
@[simp] theorem State.assertReset_outbuf (s : State) : (s.assertReset).outbuf = [] := rfl
@[simp] theorem State.assertReset_job (s : State) : (s.assertReset).job = none := rfl
@[simp] theorem State.assertReset_resetLine (s : State) : (s.assertReset).resetLine = true := rfl
@[simp] theorem State.assertReset_config (s : State) : (s.assertReset).config = s.config := rfl
@[simp] theorem State.assertReset_inputs (s : State) : (s.assertReset).inputs = s.inputs := rfl
@[simp] theorem State.assertReset_entropy (s : State) : (s.assertReset).entropy = s.entropy := rfl
@[simp] theorem State.assertReset_response (s : State) : (s.assertReset).response = none := rfl
@[simp] theorem State.assertReset_epoch (s : State) : (s.assertReset).epoch = s.epoch + 1 := rfl
@[simp] theorem State.assertReset_freeCount (s : State) : (s.assertReset).freeCount = s.freeCount := rfl

/-! `State.accessInReset` -/

@[simp] theorem State.accessInReset_mode (s : State) : (s.accessInReset).mode = s.mode := rfl
@[simp] theorem State.accessInReset_irqEn (s : State) : (s.accessInReset).irqEn = s.irqEn := rfl
@[simp] theorem State.accessInReset_done (s : State) : (s.accessInReset).done = s.done := rfl
@[simp] theorem State.accessInReset_accErr (s : State) : (s.accessInReset).accErr = s.accErr := rfl
@[simp] theorem State.accessInReset_err (s : State) : (s.accessInReset).err = s.err := rfl
@[simp] theorem State.accessInReset_keyLen (s : State) : (s.accessInReset).keyLen = s.keyLen := rfl
@[simp] theorem State.accessInReset_key (s : State) : (s.accessInReset).key = s.key := rfl
@[simp] theorem State.accessInReset_inLen (s : State) : (s.accessInReset).inLen = s.inLen := rfl
@[simp] theorem State.accessInReset_outLen (s : State) : (s.accessInReset).outLen = s.outLen := rfl
@[simp] theorem State.accessInReset_inbuf (s : State) : (s.accessInReset).inbuf = s.inbuf := rfl
@[simp] theorem State.accessInReset_outbuf (s : State) : (s.accessInReset).outbuf = s.outbuf := rfl
@[simp] theorem State.accessInReset_job (s : State) : (s.accessInReset).job = s.job := rfl
@[simp] theorem State.accessInReset_resetLine (s : State) : (s.accessInReset).resetLine = s.resetLine := rfl
@[simp] theorem State.accessInReset_config (s : State) : (s.accessInReset).config = s.config := rfl
@[simp] theorem State.accessInReset_inputs (s : State) : (s.accessInReset).inputs = s.inputs := rfl
@[simp] theorem State.accessInReset_entropy (s : State) : (s.accessInReset).entropy = s.entropy := rfl
@[simp] theorem State.accessInReset_response (s : State) : (s.accessInReset).response = Config.responseInReset s.freeCount := rfl
@[simp] theorem State.accessInReset_epoch (s : State) : (s.accessInReset).epoch = s.epoch := rfl
@[simp] theorem State.accessInReset_freeCount (s : State) : (s.accessInReset).freeCount = s.freeCount + 1 := rfl

end Sys2Proof.Machine
end

