-- ==== Sys2Proof/Laws/Memory.lean ====
section
/-! SUPPORT. The laws of the buffers' memory: what a store lists, that it keeps the canonical form, and what every index
reads as after it. -/

namespace Sys2Proof.Machine

theorem mem_cellsFrom {i : Nat} {bs : Bytes} {c : Host.Cell} (h : c ∈ cellsFrom i bs) :
    i ≤ c.1 ∧ c.1 < i + bs.length := by
  induction bs generalizing i with
  | nil => simp [cellsFrom] at h
  | cons b bs ih =>
    rcases List.mem_cons.1 h with rfl | h
    · simp
    · have := ih h; simp only [List.length_cons]; omega

theorem cellsFrom_wf (i : Nat) (bs : Bytes) : (cellsFrom i bs).wf := by
  induction bs generalizing i with
  | nil => exact List.Pairwise.nil
  | cons b bs ih =>
    exact List.Pairwise.cons (fun c hc => Nat.lt_of_succ_le (mem_cellsFrom hc).1) (ih (i + 1))

theorem cellsFrom_read (i : Nat) (bs : Bytes) (a : Nat) :
    (cellsFrom i bs).read? a = if i ≤ a then bs[a - i]? else none := by
  induction bs generalizing i with
  | nil => simp [cellsFrom, Memory.read?]
  | cons b bs ih =>
    have step : Memory.read? (cellsFrom i (b :: bs)) a =
        if a = i then some b else Memory.read? (cellsFrom (i + 1) bs) a := by
      simp only [cellsFrom, Memory.read?, List.lookup_cons, beq_eq_decide]
      by_cases h : a = i <;> simp [h]
    rw [step, ih]
    by_cases h : a = i
    · subst h; simp
    · rw [if_neg h]
      by_cases h1 : i ≤ a
      · have h2 : a - i = (a - (i + 1)) + 1 := by omega
        rw [if_pos h1, if_pos (by omega : i + 1 ≤ a), h2, List.getElem?_cons_succ]
      · rw [if_neg h1, if_neg (by omega)]

/-- A store keeps the canonical form. -/
theorem store_wf {m : Memory} (h : m.wf) (i : Nat) (bs : Bytes) : (m.store i bs).wf := by
  unfold Memory.store Memory.wf
  rw [List.pairwise_append, List.pairwise_append]
  refine ⟨⟨h.filter _, cellsFrom_wf i bs, fun x hx y hy => ?_⟩, h.filter _, fun x hx y hy => ?_⟩
  · have := (mem_cellsFrom hy).1
    have := (List.mem_filter.1 hx).2
    simp only [decide_eq_true_eq] at this; omega
  · have hy := (List.mem_filter.1 hy).2
    simp only [decide_eq_true_eq] at hy
    rcases List.mem_append.1 hx with hx | hx
    · have := (List.mem_filter.1 hx).2
      simp only [decide_eq_true_eq] at this; omega
    · have := (mem_cellsFrom hx).2; omega

/-- A store inside a buffer's capacity stays inside it. -/
theorem store_inside {m : Memory} {cap i : Nat} {bs : Bytes} (h : ∀ c ∈ m, c.1 < cap) (hb : i + bs.length ≤ cap) :
    ∀ c ∈ m.store i bs, c.1 < cap := by
  intro c hc
  rcases List.mem_append.1 hc with hc | hc
  · rcases List.mem_append.1 hc with hc | hc
    · exact h c (List.mem_filter.1 hc).1
    · have := (mem_cellsFrom hc).2; omega
  · exact h c (List.mem_filter.1 hc).1

theorem store_bufferOk {m : Memory} {cap i : Nat} {bs : Bytes} (h : BufferOk cap m) (hb : i + bs.length ≤ cap) :
    BufferOk cap (m.store i bs) :=
  ⟨store_wf h.canonical i bs, store_inside h.inside hb⟩

theorem lookup_filter_of (m : Memory) (p : Nat → Bool) (a : Nat) :
    Memory.read? (m.filter fun c => p c.1) a = if p a then m.read? a else none := by
  unfold Memory.read?
  induction m with
  | nil => simp
  | cons c m ih =>
    obtain ⟨k, v⟩ := c
    by_cases hk : a = k
    · subst hk
      by_cases hp : p a
      · rw [List.filter_cons_of_pos (by simpa using hp)]; simp [hp]
      · rw [List.filter_cons_of_neg (by simpa using hp), ih]; simp [hp]
    · have hne : (a == k) = false := by simpa using hk
      by_cases hp : p k
      · rw [List.filter_cons_of_pos (by simpa using hp)]; simp only [List.lookup_cons, hne, ih]
      · rw [List.filter_cons_of_neg (by simpa using hp), ih]; simp only [List.lookup_cons, hne]

theorem read_append (m n : Memory) (a : Nat) : Memory.read? (m ++ n) a = (m.read? a).or (n.read? a) := by
  unfold Memory.read?
  induction m with
  | nil => rfl
  | cons c m ih =>
    obtain ⟨k, v⟩ := c
    rw [List.cons_append, List.lookup_cons, List.lookup_cons]
    cases a == k
    · exact ih
    · rfl

/-- What an index reads as after a store: the byte stored there, or what it read as before. -/
theorem store_read (m : Memory) (i : Nat) (bs : Bytes) (a : Nat) :
    (m.store i bs).read? a = if i ≤ a ∧ a < i + bs.length then bs[a - i]? else m.read? a := by
  unfold Memory.store
  rw [read_append, read_append, lookup_filter_of m (fun k => decide (k < i)),
    lookup_filter_of m (fun k => decide (i + bs.length ≤ k)), cellsFrom_read]
  simp only [decide_eq_true_eq]
  by_cases h1 : a < i
  · rw [if_pos h1, if_neg (by omega), if_neg (by omega), if_neg (by omega)]; simp
  · by_cases h2 : a < i + bs.length
    · rw [if_neg h1, if_pos (by omega), if_neg (by omega), if_pos (by omega)]; simp
    · have : bs[a - i]? = none := List.getElem?_eq_none (by omega)
      rw [if_neg h1, if_pos (by omega), if_pos (by omega), if_neg (by omega), this]; rfl

theorem zeros_wf (n : Nat) : (Memory.zeros n).wf := cellsFrom_wf 0 _

theorem zeros_bufferOk (n : Nat) : BufferOk n (Memory.zeros n) :=
  ⟨zeros_wf n, fun _ hc => by have := (mem_cellsFrom hc).2; simp at this; omega⟩

theorem zeros_read {n i : Nat} (h : i < n) : (Memory.zeros n).read? i = some 0 := by
  unfold Memory.zeros
  rw [cellsFrom_read]; simp [h]

theorem empty_bufferOk (n : Nat) : BufferOk n [] := ⟨List.Pairwise.nil, by simp⟩

end Sys2Proof.Machine
end

