-- ==== Sys2Proof/Laws/Ops.lean ====
section
/-! SUPPORT. What the commands and the engine step do, said once: every later proof cites these instead of unfolding
exec, a command or the engine. -/

namespace Sys2Proof.Machine

theorem busy_of_none {s : State} (h : s.job = none) : s.busy = false := by simp [State.busy, h]

theorem busy_of_some {s : State} {j : Job} (h : s.job = some j) : s.busy = true := by simp [State.busy, h]

theorem busy_iff {s : State} : s.busy = true ↔ ∃ j, s.job = some j := by
  simp [State.busy, Option.isSome_iff_exists]

/-- A command while idle is a START (R150). -/
theorem command_idle {s : State} (h : s.job = none) (c : Cmd) (m : BitVec 2) (q : Bool) :
    s.command c m q = (s.start c m q).respond .okay := by
  simp [State.command, busy_of_none h]

/-- A command while busy is refused (R66). -/
theorem command_busy {s : State} (h : s.busy = true) (c : Cmd) (m : BitVec 2) (q : Bool) :
    s.command c m q = (s.refuseCommand q).respond .okay := by
  simp [State.command, h]

theorem configure_idle {s : State} (h : s.job = none) (m : BitVec 2) (q : Bool) :
    s.configure m q = (s.storeCtrl m q).respond .okay := by
  simp [State.configure, busy_of_none h]

theorem configure_busy {s : State} (h : s.busy = true) (m : BitVec 2) (q : Bool) :
    s.configure m q = (s.storeIrqEn q).respond .okay := by
  simp [State.configure, h]

/-- The job command a CMD field asks for; 0 asks for none (R150). -/
def cmdOfField (c : BitVec 2) : Option Cmd :=
  if c = 0 then none else if c = 1 then some .encrypt else if c = 2 then some .decrypt else some .zeroize

/-- Every command word is run either as a configuration or as a command, by its three fields alone (R91 to R94). -/
theorem exec_decodeWord (w : Word) (s : State) :
    exec (decodeWord w) s = .next
      (match cmdOfField (cmdField w) with
       | none => s.configure (modeField w) (irqField w)
       | some c => s.command c (modeField w) (irqField w)) := by
  unfold decodeWord cmdOfField
  split
  · rfl
  · split
    · split
      · next h => rw [h]; rfl
      · split
        · next h => rw [h]; rfl
        · rfl
    · split
      · split
        · next h => rw [h]; rfl
        · split
          · next h => rw [h]; rfl
          · rfl
      · rfl

/-- No instruction faults or is refused. -/
theorem exec_next (i : Instr) (s : State) : ∃ t, exec i s = .next t := by
  cases i <;> exact ⟨_, rfl⟩

theorem engineStep_idle {s : State} (h : s.job = none) : s.engineStep = s := by
  simp [State.engineStep, h]

theorem engineStep_pending {s : State} {j : Job} (h : s.job = some j) :
    s.engineStep = ((s.takeIv j).jobClears j).complete (s.jobResult j) := by
  simp [State.engineStep, h]

/-- The state an encrypt or decrypt job completes from: the request to the entropy source has been answered. -/
theorem jobClears_of_ne {s : State} {j : Job} (h : j.cmd ≠ .zeroize) : s.jobClears j = s := by
  simp [State.jobClears, h]

theorem requestsIv_zeroize {s : State} {j : Job} (h : j.cmd = .zeroize) : s.requestsIv j = false := by
  simp [State.requestsIv, h]

/-- A ZEROIZE job completes with the cleared operands (R201). -/
theorem engineStep_zeroize {s : State} {m : BitVec 2} (h : s.job = some ⟨.zeroize, m⟩) :
    s.engineStep = s.clearOperands.finishOk [] := by
  rw [engineStep_pending h]
  simp [State.takeIv, requestsIv_zeroize, State.jobClears, State.jobResult, jobFunction, State.complete]

/-- An encrypt or decrypt job completes with its outcome, after its request to the entropy source (R152, R154). -/
theorem engineStep_cipher {s : State} {j : Job} (h : s.job = some j) (hc : j.cmd ≠ .zeroize) :
    s.engineStep = (s.takeIv j).complete (s.jobResult j) := by
  rw [engineStep_pending h, jobClears_of_ne hc]

/-- What a request to the entropy source leaves: only its answers and the free-value index move (R246). -/
theorem takeIv_cases (s : State) (j : Job) : s.takeIv j = s ∨ s.takeIv j = s.consumeDraw := by
  unfold State.takeIv; split
  · exact .inr rfl
  · exact .inl rfl

/-- What a completion writes, whatever the outcome: DONE, and the idle latch (R154). -/
theorem complete_done (r : JobResult) (s : State) : (s.complete r).done = true ∧ (s.complete r).job = none := by
  cases r <;> exact ⟨rfl, rfl⟩

/-- The frame of a completion: the registers that are no result (R154, R229). -/
theorem complete_frame (r : JobResult) (s : State) :
    (s.complete r).mode = s.mode ∧ (s.complete r).irqEn = s.irqEn ∧ (s.complete r).accErr = s.accErr ∧
    (s.complete r).keyLen = s.keyLen ∧ (s.complete r).key = s.key ∧ (s.complete r).inLen = s.inLen ∧
    (s.complete r).inbuf = s.inbuf ∧ (s.complete r).resetLine = s.resetLine ∧ (s.complete r).config = s.config ∧
    (s.complete r).inputs = s.inputs ∧ (s.complete r).entropy = s.entropy ∧ (s.complete r).response = s.response ∧
    (s.complete r).epoch = s.epoch ∧ (s.complete r).freeCount = s.freeCount := by
  cases r <;> exact ⟨rfl, rfl, rfl, rfl, rfl, rfl, rfl, rfl, rfl, rfl, rfl, rfl, rfl, rfl⟩

end Sys2Proof.Machine
end

