-- ==== Sys2Proof/Laws/Bus.lean ====
section
/-! SUPPORT. The map of the window, and everything an access and a step can do, said once. -/

namespace Sys2Proof.Machine

/-- The PCE decodes each address of its window to its offset. -/
theorem windowOffset_base (p : Config.Params) (off : Offset) : windowOffset p (p.pceBase + off.toNat) = some off := by
  have h := off.isLt
  unfold windowOffset Config.windowBytes
  rw [if_pos (by omega)]
  simp

theorem windowOffset_nat (p : Config.Params) {o : Nat} (h : o < 0x40000) :
    windowOffset p (p.pceBase + o) = some (BitVec.ofNat 18 o) := by
  unfold windowOffset Config.windowBytes
  rw [if_pos (by omega)]
  simp

@[simp] theorem locate_id (p : Config.Params) : locate p 0#18 = .id := by simp [locate]
@[simp] theorem locate_ctrl (p : Config.Params) : locate p 4#18 = .ctrl := by simp [locate]
@[simp] theorem locate_status (p : Config.Params) : locate p 8#18 = .status := by simp [locate]
@[simp] theorem locate_keyLen (p : Config.Params) : locate p 12#18 = .keyLen := by simp [locate]
@[simp] theorem locate_inLen (p : Config.Params) : locate p 16#18 = .inLen := by simp [locate]
@[simp] theorem locate_outLen (p : Config.Params) : locate p 20#18 = .outLen := by simp [locate]
@[simp] theorem locate_inCap (p : Config.Params) : locate p 24#18 = .inCap := by simp [locate]

/-- CTRL is at one offset alone. -/
theorem locate_ctrl_only {p : Config.Params} {off : Offset} (h : locate p off = .ctrl) : off = 0x04 := by
  unfold locate at h
  dsimp only at h
  repeat' split at h
  all_goals first
    | exact BitVec.eq_of_toNat_eq (by simpa using ‹off.toNat = 0x04›)
    | cases h

/-- STATUS is at one offset alone. -/
theorem locate_status_only {p : Config.Params} {off : Offset} (h : locate p off = .status) : off = 0x08 := by
  unfold locate at h
  dsimp only at h
  repeat' split at h
  all_goals first
    | exact BitVec.eq_of_toNat_eq (by simpa using ‹off.toNat = 0x08›)
    | cases h

/-- The address of a decoded access is PCE_BASE plus its offset. -/
theorem windowOffset_some {p : Config.Params} {addr : Nat} {off : Offset} (h : windowOffset p addr = some off) :
    addr = p.pceBase + off.toNat := by
  unfold windowOffset Config.windowBytes at h
  split at h
  · injection h with h
    subst h
    rw [BitVec.toNat_ofNat]; omega
  · cases h

theorem locate_key (p : Config.Params) (j : Fin 8) : locate p (BitVec.ofNat 18 (0x20 + 4 * j.val)) = .key j := by
  fin_cases j
  · simp [locate]
  · simp [locate]; rfl
  all_goals simp [locate]

/-- Beyond the registers the map holds the two windows alone. -/
theorem locate_windows {p : Config.Params} {off : Offset} (h : 0x40 ≤ off.toNat) :
    locate p off =
      if 0x10000 ≤ off.toNat ∧ off.toNat < 0x20000 ∧ off.toNat - 0x10000 < p.inCap then
        .inWord ((off.toNat - 0x10000) / 4)
      else if 0x20000 ≤ off.toNat ∧ off.toNat < 0x30000 ∧ off.toNat - 0x20000 < p.outCap then
        .outWord ((off.toNat - 0x20000) / 4)
      else .unmapped := by
  unfold locate
  iterate 8 rw [if_neg (by omega)]
  rfl

theorem locate_inWord {p : Config.Params} (hp : p.Legal) {j : Nat} (h : 4 * j < p.inCap) :
    locate p (BitVec.ofNat 18 (0x10000 + 4 * j)) = .inWord j := by
  have := hp.2.2.1
  have e : (BitVec.ofNat 18 (0x10000 + 4 * j)).toNat = 0x10000 + 4 * j := Nat.mod_eq_of_lt (by omega)
  rw [locate_windows (by omega), e, if_pos (by omega)]
  congr 1; omega

theorem locate_outWord {p : Config.Params} (hp : p.Legal) {j : Nat} (h : 4 * j < p.outCap) :
    locate p (BitVec.ofNat 18 (0x20000 + 4 * j)) = .outWord j := by
  have := hp.2.2.1
  have h4 : p.outCap = p.inCap + 32 := rfl
  have e : (BitVec.ofNat 18 (0x20000 + 4 * j)).toNat = 0x20000 + 4 * j := Nat.mod_eq_of_lt (by omega)
  rw [locate_windows (by omega), e, if_neg (by omega), if_pos (by omega)]
  congr 1; omega

/-- An accepted IN word lies inside the buffer, whole. -/
theorem inWord_inside {p : Config.Params} (hp : p.Legal) {off : Offset} {size j : Nat}
    (ha : acceptedShape off size = true) (hl : locate p off = .inWord j) : 4 * j + 4 ≤ p.inCap := by
  obtain ⟨h1, _, _, _⟩ := hp
  have h4 : off.toNat % 4 = 0 := by
    have h := ha
    simp only [acceptedShape, Bool.and_eq_true, beq_iff_eq] at h
    have := congrArg BitVec.toNat h.2
    simpa [BitVec.extractLsb'_toNat] using this
  have e : Config.inWindow = 0x10000 := rfl
  unfold locate at hl
  dsimp only at hl
  repeat' split at hl
  all_goals first
    | (injection hl with hl; omega)
    | cases hl

theorem acceptedShape_iff {off : Offset} {size : Nat} :
    acceptedShape off size = true ↔ size = 4 ∧ off.toNat % 4 = 0 := by
  simp only [acceptedShape, Bool.and_eq_true, beq_iff_eq]
  constructor
  · rintro ⟨h, h'⟩
    have := congrArg BitVec.toNat h'
    exact ⟨h, by simpa [BitVec.extractLsb'_toNat] using this⟩
  · rintro ⟨h, h'⟩
    refine ⟨h, BitVec.eq_of_toNat_eq ?_⟩
    simpa [BitVec.extractLsb'_toNat] using h'

/-- A read of accepted shape. -/
theorem busAccess_read {off : Offset} (h : off.toNat % 4 = 0) (v : Word) (s : State) :
    busAccess off 4 false v s = .next (s.busRead off) := by
  simp [busAccess, acceptedShape_iff.2 ⟨rfl, h⟩]

/-- A write of accepted shape. -/
theorem busAccess_write {off : Offset} (h : off.toNat % 4 = 0) (v : Word) (s : State) :
    busAccess off 4 true v s = busWrite off v s := by
  simp [busAccess, acceptedShape_iff.2 ⟨rfl, h⟩]

/-- A read of a mapped location answers with its data. -/
theorem busRead_data {off : Offset} {s : State} {d : Word} (h : s.readData (locate s.config off) = some d) :
    s.busRead off = s.respond (.data d) := by
  simp [State.busRead, h]

/-- CTRL as a number (R64). -/
theorem ctrlWord_eq (s : State) : s.ctrlWord = BitVec.ofNat 32 (16 * s.irqEn.toNat + 4 * s.mode.toNat) := by
  unfold State.ctrlWord
  generalize s.mode = m
  generalize s.irqEn = q
  revert m
  cases q <;> decide

/-- STATUS as a number (R64). -/
theorem statusWord_eq (s : State) :
    s.statusWord = BitVec.ofNat 32 (16 * s.err.toNat + 4 * s.accErr.toNat + 2 * s.done.toNat + s.busy.toNat) := by
  unfold State.statusWord
  generalize s.err = e
  generalize s.accErr = a
  generalize s.done = d
  generalize s.busy = b
  revert e
  cases a <;> cases d <;> cases b <;> decide

/-- The number of a word made of four bytes (R67). -/
theorem wordOfBytes_toNat (b0 b1 b2 b3 : Byte) :
    (wordOfBytes b0 b1 b2 b3).toNat = b0.toNat + 2 ^ 8 * b1.toNat + 2 ^ 16 * b2.toNat + 2 ^ 24 * b3.toNat := by
  simp only [wordOfBytes, BitVec.toNat_append]
  rw [← Nat.shiftLeft_add_eq_or_of_lt b2.isLt, ← Nat.shiftLeft_add_eq_or_of_lt b1.isLt,
    ← Nat.shiftLeft_add_eq_or_of_lt b0.isLt]
  simp only [Nat.shiftLeft_eq]
  omega

/-- Byte `i` of a word made of four bytes (R67). -/
theorem wordByte_wordOfBytes (b0 b1 b2 b3 : Byte) :
    wordByte (wordOfBytes b0 b1 b2 b3) 0 = b0 ∧ wordByte (wordOfBytes b0 b1 b2 b3) 1 = b1 ∧
    wordByte (wordOfBytes b0 b1 b2 b3) 2 = b2 ∧ wordByte (wordOfBytes b0 b1 b2 b3) 3 = b3 := by
  have h0 := b0.isLt
  have h1 := b1.isLt
  have h2 := b2.isLt
  have h3 := b3.isLt
  refine ⟨?_, ?_, ?_, ?_⟩ <;> apply BitVec.eq_of_toNat_eq <;>
    simp only [wordByte, BitVec.extractLsb'_toNat, wordOfBytes_toNat, Nat.shiftRight_eq_div_pow] <;> omega

/-- The bytes of a word make the word (R67). -/
theorem wordOfBytes_wordByte (w : Word) :
    wordOfBytes (wordByte w 0) (wordByte w 1) (wordByte w 2) (wordByte w 3) = w := by
  have hw := w.isLt
  apply BitVec.eq_of_toNat_eq
  rw [wordOfBytes_toNat]
  simp only [wordByte, BitVec.extractLsb'_toNat, Nat.shiftRight_eq_div_pow]
  omega

/-- The locations whose writes are refused while busy (R66). -/
abbrev Location.Operand (l : Location) : Prop :=
  l = .keyLen ∨ l = .inLen ∨ (∃ j, l = .key j) ∨ ∃ j, l = .inWord j

/-- Everything one access can do to the state. -/
inductive AccessEffect (off : Offset) (size : Nat) (write : Bool) (v : Word) (s : State) : State → Prop where
  /-- a read, or a BusError: the response is all -/
  | answered (r : Response) : AccessEffect off size write v s (s.respond r)
  /-- a command word whose CMD is not 0 -/
  | command (c : Cmd) (hw : write = true) (ha : acceptedShape off size = true) (hl : locate s.config off = .ctrl)
      (hc : cmdOfField (cmdField v) = some c) :
      AccessEffect off size write v s (s.command c (modeField v) (irqField v))
  /-- a command word whose CMD is 0 -/
  | configure (hw : write = true) (ha : acceptedShape off size = true) (hl : locate s.config off = .ctrl)
      (hc : cmdOfField (cmdField v) = none) : AccessEffect off size write v s (s.configure (modeField v) (irqField v))
  /-- a STATUS write -/
  | acknowledged (hw : write = true) (ha : acceptedShape off size = true) (hl : locate s.config off = .status) :
      AccessEffect off size write v s ((s.acknowledge v).respond .okay)
  /-- an operand write refused while busy -/
  | refused (hw : write = true) (ha : acceptedShape off size = true) (hl : (locate s.config off).Operand)
      (hb : s.busy = true) :
      AccessEffect off size write v s (s.refuseOperand.respond .okay)
  | keyLen (hw : write = true) (hl : locate s.config off = .keyLen) (hb : s.busy = false) :
      AccessEffect off size write v s (State.respond .okay { s with keyLen := v.extractLsb' 0 8 })
  | inLen (hw : write = true) (hl : locate s.config off = .inLen) (hb : s.busy = false) :
      AccessEffect off size write v s (State.respond .okay { s with inLen := v })
  | key (j : Fin 8) (hw : write = true) (hl : locate s.config off = .key j) (hb : s.busy = false) :
      AccessEffect off size write v s (State.respond .okay { s with key := s.key.set j v })
  | inWord (j : Nat) (hw : write = true) (ha : acceptedShape off size = true) (hl : locate s.config off = .inWord j)
      (hb : s.busy = false) :
      AccessEffect off size write v s
        (State.respond .okay { s with inbuf := s.inbuf.store (4 * j) (wordBytes v) })

theorem busRead_effect (off : Offset) (s : State) : ∃ r, s.busRead off = s.respond r := by
  unfold State.busRead
  split
  · exact ⟨_, rfl⟩
  · exact ⟨_, rfl⟩

/-- Every access ends in a next state, by one of the effects above. -/
theorem busAccess_effect (off : Offset) (size : Nat) (write : Bool) (v : Word) (s : State) :
    ∃ t, busAccess off size write v s = .next t ∧ AccessEffect off size write v s t := by
  unfold busAccess
  cases ha : acceptedShape off size
  · exact ⟨_, rfl, .answered _⟩
  · cases write
    · obtain ⟨r, hr⟩ := busRead_effect off s
      exact ⟨_, rfl, hr ▸ .answered r⟩
    · show ∃ t, busWrite off v s = .next t ∧ _
      unfold busWrite State.operandWrite
      split
      · next hl =>
        rw [exec_decodeWord]
        split
        · next hc => exact ⟨_, rfl, .configure rfl ha hl hc⟩
        · next c hc => exact ⟨_, rfl, .command c rfl ha hl hc⟩
      · next hl => exact ⟨_, rfl, .acknowledged rfl ha hl⟩
      · next hl =>
        cases hb : s.busy
        · exact ⟨_, rfl, .keyLen rfl hl hb⟩
        · exact ⟨_, rfl, .refused rfl ha (.inl hl) hb⟩
      · next hl =>
        cases hb : s.busy
        · exact ⟨_, rfl, .inLen rfl hl hb⟩
        · exact ⟨_, rfl, .refused rfl ha (.inr (.inl hl)) hb⟩
      · next j hl =>
        cases hb : s.busy
        · exact ⟨_, rfl, .key j rfl hl hb⟩
        · exact ⟨_, rfl, .refused rfl ha (.inr (.inr (.inl ⟨j, hl⟩))) hb⟩
      · next j hl =>
        cases hb : s.busy
        · exact ⟨_, rfl, .inWord j rfl ha hl hb⟩
        · exact ⟨_, rfl, .refused rfl ha (.inr (.inr (.inr ⟨j, hl⟩))) hb⟩
      all_goals exact ⟨_, rfl, .answered _⟩

/-- Everything one event can do to the state (the event is already taken from the schedule). -/
inductive EventEffect (i : Input) (s : State) : State → Prop where
  /-- an address the PCE does not decode -/
  | elsewhere (addr size : Nat) (write : Bool) (v : Word) (hi : i = .bus addr size write v)
      (ho : windowOffset s.config addr = none) : EventEffect i s { s with response := none }
  /-- an access while reset is asserted -/
  | inReset (hr : s.resetLine = true) : EventEffect i s s.accessInReset
  /-- an access -/
  | access (addr size : Nat) (write : Bool) (v : Word) (off : Offset) (t : State) (hi : i = .bus addr size write v)
      (ho : windowOffset s.config addr = some off) (hr : s.resetLine = false)
      (he : AccessEffect off size write v s t) : EventEffect i s t
  /-- a turn of the engine -/
  | engine (hi : i = .engine) : EventEffect i s s.engineTurn
  /-- a level on the reset input -/
  | reset (level : Bool) (hi : i = .reset level) : EventEffect i s (s.setResetLine level)

theorem takeInput_effect (i : Input) (s : State) : ∃ t, takeInput i s = .next t ∧ EventEffect i s t := by
  cases i with
  | bus addr size write v =>
    show ∃ t, busCycle addr size write v s = .next t ∧ _
    unfold busCycle
    split
    · next ho => exact ⟨_, rfl, .elsewhere addr size write v rfl ho⟩
    · next off ho =>
      cases hr : s.resetLine
      · obtain ⟨t, ht, he⟩ := busAccess_effect off size write v s
        exact ⟨t, by simpa using ht, .access addr size write v off t rfl ho hr he⟩
      · exact ⟨_, rfl, .inReset hr⟩
  | engine => exact ⟨_, rfl, .engine rfl⟩
  | reset level => exact ⟨_, rfl, .reset level rfl⟩

theorem step_nil {s : State} (h : s.inputs = []) : step s = .next s.engineTurn := by
  unfold step; rw [h]

theorem step_cons {s : State} {i : Input} {rest : List Input} (h : s.inputs = i :: rest) :
    step s = takeInput i { s with inputs := rest } := by
  unfold step; rw [h]

/-- A step on an access inside the window, with reset released, is that access (R60, R73). -/
theorem step_access {s : State} {off : Offset} {size : Nat} {write : Bool} {v : Word} {rest : List Input}
    (hr : s.resetLine = false) (h : s.inputs = .bus (s.config.pceBase + off.toNat) size write v :: rest) :
    step s = busAccess off size write v { s with inputs := rest } := by
  rw [step_cons h]
  simp [takeInput, busCycle, windowOffset_base, hr]

/-- No step faults or is refused. -/
theorem step_next (s : State) : ∃ t, step s = .next t := by
  cases h : s.inputs with
  | nil => exact ⟨_, step_nil h⟩
  | cons i rest =>
    obtain ⟨t, ht, _⟩ := takeInput_effect i { s with inputs := rest }
    exact ⟨t, by rw [step_cons h, ht]⟩

/-- Everything a step can do: with no event left a turn of the engine, else the next event. -/
theorem step_effect {s t : State} (h : step s = .next t) :
    (s.inputs = [] ∧ t = s.engineTurn) ∨
    (∃ i rest, s.inputs = i :: rest ∧ EventEffect i { s with inputs := rest } t) := by
  cases hs : s.inputs with
  | nil => rw [step_nil hs] at h; cases h; exact .inl ⟨rfl, rfl⟩
  | cons i rest =>
    obtain ⟨t', ht', he⟩ := takeInput_effect i { s with inputs := rest }
    rw [step_cons hs, ht'] at h; cases h
    exact .inr ⟨i, rest, rfl, he⟩

end Sys2Proof.Machine
end

