-- ==== Sys2Proof/Laws/Modes.lean ====
section
/-! SUPPORT. Lengths: of slices, pads, blocks and modes, and so of every outcome of a job. -/

namespace Sys2Proof.Machine

@[simp] theorem slice_length (b : Nat → Byte) (i j : Nat) : (slice b i j).length = j - i := by simp [slice]

theorem slice_getElem? (b : Nat → Byte) (i j n : Nat) :
    (slice b i j)[n]? = if n < j - i then some (b (i + n)) else none := by
  unfold slice
  rw [List.getElem?_map]
  split
  · next h => rw [List.getElem?_range h]; rfl
  · next h => rw [List.getElem?_eq_none (by simpa using h)]; rfl

/-- A slice depends only on the bytes it takes. -/
theorem slice_congr {b b' : Nat → Byte} {i j : Nat} (h : ∀ n, i ≤ n → n < j → b n = b' n) : slice b i j = slice b' i j := by
  unfold slice
  refine List.map_congr_left fun n hn => h _ (by omega) ?_
  have := List.mem_range.1 hn; omega

theorem padLen_range (n : Nat) : 1 ≤ padLen n ∧ padLen n ≤ 16 := by
  unfold padLen Config.block; omega

theorem pad_length (p : Bytes) : (pad p).length = 16 * (p.length / 16 + 1) := by
  simp only [pad, List.length_append, List.length_replicate, padLen, Config.block]; omega

theorem blocksOf_length (n : Nat) (b : Bytes) : (blocksOf n b).length = n := by
  induction n generalizing b with
  | zero => rfl
  | succ n ih => simp [blocksOf, ih]

theorem blocksOf_mem_length {n : Nat} {b x : Bytes} (h : n * 16 ≤ b.length) (hx : x ∈ blocksOf n b) :
    x.length = 16 := by
  induction n generalizing b with
  | zero => simp [blocksOf] at hx
  | succ n ih =>
    rcases List.mem_cons.1 hx with rfl | hx
    · simp only [List.length_take, Config.block]; omega
    · exact ih (by simp only [List.length_drop, Config.block]; omega) hx

theorem blocks_mem_length {b x : Bytes} (hx : x ∈ blocks b) : x.length = 16 :=
  blocksOf_mem_length (by unfold Config.block; omega) hx

theorem blocks_length (b : Bytes) : (blocks b).length = b.length / 16 := blocksOf_length _ _

theorem blocksOf_flatten {n : Nat} {b : Bytes} (h : b.length = n * 16) : (blocksOf n b).flatten = b := by
  induction n generalizing b with
  | zero => simp at h; simp [blocksOf, h]
  | succ n ih =>
    simp only [blocksOf, List.flatten_cons]
    rw [ih (by simp only [List.length_drop, Config.block]; omega), List.take_append_drop]

theorem blocks_flatten {b : Bytes} (h : b.length % 16 = 0) : (blocks b).flatten = b :=
  blocksOf_flatten (by unfold Config.block; omega)

theorem flatMap_length {l : List Bytes} {f : Bytes → Bytes} (h : ∀ x ∈ l, (f x).length = 16) :
    (l.flatMap f).length = 16 * l.length := by
  induction l with
  | nil => rfl
  | cons x l ih =>
    rw [List.flatMap_cons, List.length_append, h x List.mem_cons_self, ih fun y hy => h y (List.mem_cons_of_mem _ hy),
      List.length_cons]
    omega

theorem ecbEnc_length (k pp : Bytes) : (ecbEnc k pp).length = 16 * (pp.length / 16) := by
  rw [ecbEnc, flatMap_length fun x hx => aesEnc_length k (blocks_mem_length hx), blocks_length]

theorem ecbDec_length (k c : Bytes) : (ecbDec k c).length = 16 * (c.length / 16) := by
  rw [ecbDec, flatMap_length fun x hx => aesDec_length k (blocks_mem_length hx), blocks_length]

theorem xorBytes_length {a b : Bytes} (h : a.length = 16) (h' : b.length = 16) : (xorBytes a b).length = 16 := by
  simp [xorBytes, h, h']

theorem cbcEncFrom_length (k : Bytes) {prev : Bytes} {l : List Bytes} (hp : prev.length = 16)
    (h : ∀ x ∈ l, x.length = 16) : (cbcEncFrom k prev l).length = 16 * l.length := by
  induction l generalizing prev with
  | nil => rfl
  | cons x l ih =>
    have hc : (aesEnc k (xorBytes x prev)).length = 16 := aesEnc_length k (xorBytes_length (h x List.mem_cons_self) hp)
    rw [cbcEncFrom, List.length_append, hc, ih hc fun y hy => h y (List.mem_cons_of_mem _ hy), List.length_cons]
    omega

theorem cbcDecFrom_length (k : Bytes) {prev : Bytes} {l : List Bytes} (hp : prev.length = 16)
    (h : ∀ x ∈ l, x.length = 16) : (cbcDecFrom k prev l).length = 16 * l.length := by
  induction l generalizing prev with
  | nil => rfl
  | cons x l ih =>
    have hx := h x List.mem_cons_self
    rw [cbcDecFrom, List.length_append, xorBytes_length (aesDec_length k hx) hp,
      ih hx fun y hy => h y (List.mem_cons_of_mem _ hy), List.length_cons]
    omega

theorem cbcEnc_length (k pp : Bytes) {iv : Bytes} (h : iv.length = 16) :
    (cbcEnc k iv pp).length = 16 * (pp.length / 16) := by
  rw [cbcEnc, cbcEncFrom_length k h fun x hx => blocks_mem_length hx, blocks_length]

theorem cbcDec_length (k c : Bytes) {iv : Bytes} (h : iv.length = 16) :
    (cbcDec k iv c).length = 16 * (c.length / 16) := by
  rw [cbcDec, cbcDecFrom_length k h fun x hx => blocks_mem_length hx, blocks_length]

/-- What a successful `unpad` gives: a prefix, 1 to 16 bytes shorter (R131). -/
theorem unpad_ok {pp p : Bytes} (h : unpad pp = .ok p) :
    ∃ n, 1 ≤ n ∧ n ≤ 16 ∧ p = pp.take (pp.length - n) ∧ (pp.getLastD 0).toNat = n := by
  unfold unpad at h
  dsimp only at h
  split at h
  · exact absurd h (by simp)
  · next hn =>
    split at h
    · injection h with h
      exact ⟨_, by omega, by unfold Config.block at hn; omega, h.symm, rfl⟩
    · exact absurd h (by simp)

theorem unpad_err {pp : Bytes} {e : ErrorKind} (h : unpad pp = .err e) : e = .padding := by
  unfold unpad at h
  dsimp only at h
  split at h
  · injection h with h; exact h.symm
  · split at h
    · exact absurd h (by simp)
    · injection h with h; exact h.symm

/-- What an encrypt body that succeeds computed (R160). -/
theorem encryptJob_ok {inCap keyLen inLen : Nat} {m : BitVec 2} {keyb inb : Nat → Byte} {d : Draw} {out : Bytes}
    (h : encryptJob inCap m keyLen keyb inb inLen d = .ok out) :
    LegalKeyLen keyLen ∧ inLen ≤ inCap ∧
    ((m = 1 ∧ out = ecbEnc (slice keyb 0 keyLen) (pad (slice inb 0 inLen))) ∨
     (m = 0 ∧ ∃ v, d = .iv v ∧ out = v.toList ++ cbcEnc (slice keyb 0 keyLen) v.toList (pad (slice inb 0 inLen)))) := by
  unfold encryptJob at h
  split at h
  · exact absurd h (by simp)
  next hm =>
  split at h
  · exact absurd h (by simp)
  next hk =>
  split at h
  · exact absurd h (by simp)
  next hl =>
  refine ⟨Classical.not_not.1 hk, by omega, ?_⟩
  split at h
  · next h1 => injection h with h; exact .inl ⟨h1, h.symm⟩
  · next h1 =>
    have h0 : m = 0 := by rcases Classical.not_not.1 hm with h0 | h0; exacts [h0, absurd h0 h1]
    cases d with
    | fail => exact absurd h (by simp)
    | iv v => injection h with h; exact .inr ⟨h0, v, rfl, h.symm⟩

theorem cipherPart_length (m : BitVec 2) (inb : Nat → Byte) (n : Nat) :
    (cipherPart m inb n).length = if m = 0 then n - 16 else n := by
  unfold cipherPart Config.block; split <;> simp

/-- What a decrypt body that succeeds computed (R180). -/
theorem decryptJob_ok {inCap keyLen inLen : Nat} {m : BitVec 2} {keyb inb : Nat → Byte} {out : Bytes}
    (h : decryptJob inCap m keyLen keyb inb inLen = .ok out) :
    (m = 0 ∨ m = 1) ∧ LegalKeyLen keyLen ∧ inLen ≤ inCap ∧ (m = 0 → 16 ≤ inLen) ∧
    (cipherPart m inb inLen).length ≠ 0 ∧ (cipherPart m inb inLen).length % 16 = 0 ∧
    unpad (decipher m (slice keyb 0 keyLen) inb inLen) = .ok out := by
  unfold decryptJob Config.block at h
  split at h
  · exact absurd h (by simp)
  next hm =>
  split at h
  · exact absurd h (by simp)
  next hk =>
  split at h
  · exact absurd h (by simp)
  next hl =>
  split at h
  · exact absurd h (by simp)
  next h16 =>
  split at h
  · exact absurd h (by simp)
  next hc =>
  exact ⟨Classical.not_not.1 hm, Classical.not_not.1 hk, by omega,
    fun h0 => Nat.le_of_not_lt fun hlt => h16 ⟨h0, hlt⟩, fun e => hc (.inl e),
    Classical.not_not.1 fun e => hc (.inr e), h⟩

theorem decipher_length {m : BitVec 2} {k : Bytes} {inb : Nat → Byte} {n : Nat}
    (h : (cipherPart m inb n).length % 16 = 0) :
    (decipher m k inb n).length = (cipherPart m inb n).length := by
  unfold decipher
  split
  · rw [cbcDec_length k _ (by simp [Config.block])]; omega
  · rw [ecbDec_length]; omega

end Sys2Proof.Machine
end

