-- ==== Sys2Proof/Laws/Jobs.lean ====
section
/-! SUPPORT. How long a job's result is, what completion leaves in the output buffer and behind the read gate, and how
the operands of a job survive the events before it. -/

namespace Sys2Proof.Machine

/-- A successful encrypt body's output length (R164). -/
theorem encryptJob_length {inCap keyLen inLen : Nat} {m : BitVec 2} {keyb inb : Nat → Byte} {d : Draw} {out : Bytes}
    (h : encryptJob inCap m keyLen keyb inb inLen d = .ok out) :
    (m = 1 ∧ out.length = 16 * (inLen / 16 + 1)) ∨ (m = 0 ∧ out.length = 16 + 16 * (inLen / 16 + 1)) := by
  obtain ⟨_, _, ⟨hm, rfl⟩ | ⟨hm, v, _, rfl⟩⟩ := encryptJob_ok h
  · exact .inl ⟨hm, by rw [ecbEnc_length, pad_length, slice_length]; omega⟩
  · exact .inr ⟨hm, by
      rw [List.length_append, cbcEnc_length _ _ (by simp), pad_length, slice_length]
      simp only [Vector.length_toList]; omega⟩

/-- A successful decrypt body's output length, in its ciphertext's (R186). -/
theorem decryptJob_length {inCap keyLen inLen : Nat} {m : BitVec 2} {keyb inb : Nat → Byte} {out : Bytes}
    (h : decryptJob inCap m keyLen keyb inb inLen = .ok out) :
    (if m = 0 then inLen - 16 else inLen) - 16 ≤ out.length ∧ out.length + 1 ≤ (if m = 0 then inLen - 16 else inLen) := by
  obtain ⟨_, _, _, h16, h0, hc, hu⟩ := decryptJob_ok h
  obtain ⟨n, h1, h2, rfl, _⟩ := unpad_ok hu
  rw [List.length_take, decipher_length hc]
  rw [cipherPart_length] at h0 hc ⊢
  generalize (if m = 0 then inLen - 16 else inLen) = c at h0 hc ⊢
  omega

/-- Every outcome with a result fits the output buffer (R27). -/
theorem jobResult_fits {s : State} (hp : s.config.Legal) {j : Job} {out : Bytes} (h : s.jobResult j = .ok out) :
    out.length ≤ s.config.outCap := by
  obtain ⟨h1, _, _, _⟩ := hp
  unfold State.jobResult jobFunction at h
  unfold Config.Params.outCap
  split at h
  · have := (encryptJob_ok h).2.1
    rcases encryptJob_length h with ⟨_, e⟩ | ⟨_, e⟩ <;> rw [e] <;> omega
  · have := (decryptJob_ok h).2.2.1
    have := (decryptJob_length h).2
    split at this <;> omega
  · injection h with h; subst h; simp

theorem outLen_toNat {s : State} (hp : s.config.Legal) {j : Job} {out : Bytes} (h : s.jobResult j = .ok out) :
    (BitVec.ofNat 32 out.length).toNat = out.length := by
  have h1 := jobResult_fits hp h
  obtain ⟨_, _, h3, _⟩ := hp
  unfold Config.Params.outCap at h1
  rw [BitVec.toNat_ofNat]; omega

/-- The output buffer after a completion with a result: the result, and beyond it what was there (R154). -/
theorem finishOk_outByte (out : Bytes) (s : State) (i : Nat) :
    (s.finishOk out).outByte i = if h : i < out.length then out[i] else s.outByte i := by
  unfold State.outByte
  rw [State.finishOk_outbuf, store_read, State.finishOk_epoch]
  by_cases h : i < out.length
  · rw [if_pos (by omega), dif_pos h]; simp [h]
  · rw [if_neg (by omega), dif_neg h]

/-- What the host reads after a completion with a result is the result (R32, R154). -/
theorem finishOk_result {out : Bytes} {s : State} (h : (BitVec.ofNat 32 out.length).toNat = out.length) :
    (s.finishOk out).result = out := by
  unfold State.result
  rw [State.finishOk_outLen, h]
  refine List.ext_getElem? fun i => ?_
  rw [slice_getElem?]
  split
  · next hi =>
    have hi' : i < out.length := by omega
    unfold State.gatedOutByte
    rw [State.finishOk_outLen, h, Nat.zero_add, if_pos hi', finishOk_outByte, dif_pos hi', List.getElem?_eq_getElem hi']
  · next hi => rw [List.getElem?_eq_none (by omega)]

/-- The operands of a job are those of any state with the same key store, lengths, input buffer and source (R151). -/
theorem jobResult_congr {s t : State} (h1 : t.config = s.config) (h2 : t.keyLen = s.keyLen) (h3 : t.key = s.key)
    (h4 : t.inLen = s.inLen) (h5 : t.inbuf = s.inbuf) (h6 : t.epoch = s.epoch) (h7 : t.entropy = s.entropy)
    (h8 : t.freeCount = s.freeCount) (j : Job) : t.jobResult j = s.jobResult j := by
  have e1 : t.keyByte = s.keyByte := by funext i; simp [State.keyByte, h3]
  have e2 : t.inByte = s.inByte := by funext i; simp [State.inByte, h5, h6]
  have e3 : t.nextDraw = s.nextDraw := by simp [State.nextDraw, h1, h7, h8]
  simp only [State.jobResult, h1, h2, h4, e1, e2, e3]

end Sys2Proof.Machine
end

