-- ==== Sys2Proof/Laws/Inv.lean ====
section
/-! SUPPORT. Which fields the invariant reads, and that the code of an error kind is in range. -/

namespace Sys2Proof.Machine

/-- The invariant reads no port: the schedule, the entropy source's answers, the response and the free-value index may be
anything. -/
theorem Inv.ports {s : State} (h : Inv s) (i : List Input) (e : List Draw) (r : Option Response) (f : Nat) :
    Inv { s with inputs := i, entropy := e, response := r, freeCount := f } where
  config := h.config
  errCode := h.errCode
  outLen := h.outLen
  errNoOutput := h.errNoOutput
  outKnown := h.outKnown
  inbuf := h.inbuf
  outbuf := h.outbuf
  busy := ⟨h.busy.notDone, h.busy.noError, h.busy.noOutput, h.busy.modeHeld⟩
  inReset := fun hr =>
    let k := h.inReset hr
    ⟨k.mode, k.irqEn, k.done, k.accErr, k.err, k.keyLen, k.key, k.inLen, k.outLen, k.job, k.inbuf, k.outbuf⟩

/-- The codes of R221 to R225 are 1 to 5 (R226). -/
theorem code_range (k : ErrorKind) : 1 ≤ k.code.toNat ∧ k.code.toNat ≤ 5 := by cases k <;> decide

end Sys2Proof.Machine
end

