-- ==== Sys2Proof/Laws/PerInstr.lean ====
section
/-! SUPPORT. Statements made of every instruction, one lemma per constructor. Family Canonical: the canonical word of an
instruction has its ignored bits 31:5 zero (R94, R96), and bit 4 of it is the instruction's IRQ_EN (R94, R99). -/

namespace Sys2Proof

/-- IRQ_EN of an instruction, bit 4 of its word (R94). -/
def Instr.irq : Instr → Bool
  | .nop _ q => q
  | .encCbc q => q
  | .encEcb q => q
  | .encRsv _ q => q
  | .decCbc q => q
  | .decEcb q => q
  | .decRsv _ q => q
  | .zeroize _ q => q

theorem commandWord_canonical (c m : BitVec 2) (q : Bool) :
    commandWord c m q &&& 0xFFFFFFE0 = 0 ∧ irqField (commandWord c m q) = q := by
  cases q <;> revert c m <;> decide

end Sys2Proof

namespace Sys2Proof.Laws.Canonical

def Statement (i : Instr) : Prop := encodeWord i &&& 0xFFFFFFE0 = 0 ∧ irqField (encodeWord i) = i.irq

theorem nop (m : BitVec 2) (q : Bool) : Statement (.nop m q) := commandWord_canonical 0 m q
theorem encCbc (q : Bool) : Statement (.encCbc q) := commandWord_canonical 1 0 q
theorem encEcb (q : Bool) : Statement (.encEcb q) := commandWord_canonical 1 1 q
theorem encRsv (m : BitVec 2) (q : Bool) : Statement (.encRsv m q) := commandWord_canonical 1 m q
theorem decCbc (q : Bool) : Statement (.decCbc q) := commandWord_canonical 2 0 q
theorem decEcb (q : Bool) : Statement (.decEcb q) := commandWord_canonical 2 1 q
theorem decRsv (m : BitVec 2) (q : Bool) : Statement (.decRsv m q) := commandWord_canonical 2 m q
theorem zeroize (m : BitVec 2) (q : Bool) : Statement (.zeroize m q) := commandWord_canonical 3 m q

end Sys2Proof.Laws.Canonical
end

