-- ==== Sys2Proof/Machine/Driver.lean ====
section
/-! DEFINITION. The host's side as the spec writes it: driver notation and the pseudo-instructions (R15, R99, R100), each
expanded into the bus accesses it stands for. Loops and branches of a driver are the host ISA's, not the PCE's (R15):
WAITDONE is its one STATUS read, and the engine's turn stands where the loop waits. -/

namespace Sys2Proof.Machine

/-- `WR off, value` (R15). -/
def wr (p : Config.Params) (off : Nat) (v : Word) : Input := .bus (p.pceBase + off) 4 true v

/-- `RD off` (R15). -/
def rd (p : Config.Params) (off : Nat) : Input := .bus (p.pceBase + off) 4 false 0

/-- `word_j(b)`, bytes beyond the end being 0 (R100). -/
def wordAt (b : Bytes) (j : Nat) : Word :=
  wordOfBytes (b.getD (4 * j) 0) (b.getD (4 * j + 1) 0) (b.getD (4 * j + 2) 0) (b.getD (4 * j + 3) 0)

/-- `ceil(n/4)`, the words that hold `n` bytes. -/
def wordsFor (n : Nat) : Nat := (n + 3) / 4

/-- `LOADKEY k` (R100). -/
def loadKey (p : Config.Params) (k : Bytes) : List Input :=
  wr p 0x0C (BitVec.ofNat 32 k.length) ::
    (List.range (min (wordsFor k.length) 8)).map fun j => wr p (0x20 + 4 * j) (wordAt k j)

/-- `LOADIN b` (R100). -/
def loadIn (p : Config.Params) (b : Bytes) : List Input :=
  wr p 0x10 (BitVec.ofNat 32 b.length) ::
    (List.range (wordsFor b.length)).map fun j => wr p (Config.inWindow + 4 * j) (wordAt b j)

/-- A command mnemonic assembles to a write of its canonical word to CTRL (R99). -/
def issue (p : Config.Params) (i : Instr) : Input := wr p 0x04 (encodeWord i)

/-- One pass of `WAITDONE`'s loop: the STATUS read (R100). -/
def pollStatus (p : Config.Params) : Input := rd p 0x08

/-- `ACK` (R100). -/
def ack (p : Config.Params) : Input := wr p 0x08 0x2

/-- `READOUT` of `n` bytes: the OUT_LEN read, then the OUT words (R100). -/
def readOut (p : Config.Params) (n : Nat) : List Input :=
  rd p 0x14 :: (List.range (wordsFor n)).map fun j => rd p (Config.outWindow + 4 * j)

/-- `RUN cmd k, d` with the engine's turn where WAITDONE waits, and a READOUT of `n` bytes (R100). -/
def runJob (p : Config.Params) (i : Instr) (k d : Bytes) (n : Nat) : List Input :=
  loadKey p k ++ loadIn p d ++ [issue p i, .engine, pollStatus p, pollStatus p] ++ readOut p n ++ [ack p]

end Sys2Proof.Machine
end

