-- ==== Sys2Proof/Tests/Slice0.lean ====
section
/-! SUPPORT. The session's own tests: the expected results are the vectors of spec/95_test_vectors.md and the examples of
the rules; and for each statement that has hypotheses, a state and operands that meet them together. -/

namespace Sys2Proof.Tests

open Sys2Proof Sys2Proof.Machine

/-! ## Ill-formed terms and decoding -/

theorem test_encRsv_mode0_illFormed : (Instr.encRsv 0 false).wellFormed = false := by decide
theorem test_encRsv_mode1_illFormed : (Instr.encRsv 1 true).wellFormed = false := by decide
theorem test_decRsv_mode0_illFormed : (Instr.decRsv 0 false).wellFormed = false := by decide
theorem test_decRsv_mode1_illFormed : (Instr.decRsv 1 true).wellFormed = false := by decide

/-- R91, R96: CMD in bits 1:0, MODE in bits 3:2, IRQ_EN in bit 4, written out bit by bit. -/
theorem test_decode_control :
    decodeWord 0b00000000000000000000000000001000 = .nop 2 false ∧
    decodeWord 0b00000000000000000000000000010111 = .zeroize 1 true := by decide
theorem test_decode_encrypt :
    decodeWord 0b00000000000000000000000000000001 = .encCbc false ∧
    decodeWord 0b00000000000000000000000000000101 = .encEcb false ∧
    decodeWord 0b00000000000000000000000000001001 = .encRsv 2 false ∧
    decodeWord 0b00000000000000000000000000011101 = .encRsv 3 true := by decide
theorem test_decode_decrypt :
    decodeWord 0b00000000000000000000000000010010 = .decCbc true ∧
    decodeWord 0b00000000000000000000000000000110 = .decEcb false ∧
    decodeWord 0b00000000000000000000000000001010 = .decRsv 2 false ∧
    decodeWord 0b00000000000000000000000000001110 = .decRsv 3 false := by decide
theorem test_decode_truncated : decode [0x05, 0x00, 0x00] = .error .truncated := by rfl
theorem test_decodeTableWord : decodeTableWord 32 0x9 = some (.encRsv 2 false) ∧ decodeTableWord 8 0x3 = some (.zeroize 0 false) := by
  decide

/-! ## The AES core (section 2 of the vectors) -/

/-- F-GF1 to F-GF3, F-SB, and the examples of R111. -/
theorem test_gf : gmul 0x57 0x83 = 0xC1 ∧ gmul 0x57 0x13 = 0xFE ∧ xtime 0x57 = 0xAE ∧ xtime 0xAE = 0x47 ∧
    ginv 0x53 = 0xCA ∧ sbox 0x53 = 0xED ∧ invSbox 0xED = 0x53 := by decide +kernel
/-- F-MC. -/
theorem test_mixColumn : mixColumn ⟨0xd4, 0xbf, 0x5d, 0x30⟩ = ⟨0x04, 0x66, 0x81, 0xe5⟩ ∧
    invMixColumn ⟨0x04, 0x66, 0x81, 0xe5⟩ = ⟨0xd4, 0xbf, 0x5d, 0x30⟩ := by decide +kernel
/-- F-KE1. -/
theorem test_expand128 :
    (expandKey [0x2b, 0x7e, 0x15, 0x16, 0x28, 0xae, 0xd2, 0xa6, 0xab, 0xf7, 0x15, 0x88, 0x09, 0xcf, 0x4f, 0x3c])[43]? = some ⟨0xb6, 0x63, 0x0c, 0xa6⟩ := by
  decide +kernel
/-- F-KE2. -/
theorem test_expand192 :
    (expandKey [0x8e, 0x73, 0xb0, 0xf7, 0xda, 0x0e, 0x64, 0x52, 0xc8, 0x10, 0xf3, 0x2b, 0x80, 0x90, 0x79, 0xe5, 0x62, 0xf8, 0xea, 0xd2, 0x52, 0x2c, 0x6b, 0x7b])[51]? =
      some ⟨0x01, 0x00, 0x22, 0x02⟩ := by
  decide +kernel
/-- F-KE3. -/
theorem test_expand256 :
    (expandKey [0x60, 0x3d, 0xeb, 0x10, 0x15, 0xca, 0x71, 0xbe, 0x2b, 0x73, 0xae, 0xf0, 0x85, 0x7d, 0x77, 0x81, 0x1f, 0x35, 0x2c, 0x07, 0x3b, 0x61, 0x08, 0xd7, 0x2d, 0x98, 0x10, 0xa3, 0x09, 0x14, 0xdf, 0xf4])[59]? =
      some ⟨0x70, 0x6c, 0x63, 0x1e⟩ := by
  decide +kernel
/-- F-B. -/
theorem test_aesEnc_appendixB :
    aesEnc [0x2b, 0x7e, 0x15, 0x16, 0x28, 0xae, 0xd2, 0xa6, 0xab, 0xf7, 0x15, 0x88, 0x09, 0xcf, 0x4f, 0x3c] [0x32, 0x43, 0xf6, 0xa8, 0x88, 0x5a, 0x30, 0x8d, 0x31, 0x31, 0x98, 0xa2, 0xe0, 0x37, 0x07, 0x34] =
      [0x39, 0x25, 0x84, 0x1d, 0x02, 0xdc, 0x09, 0xfb, 0xdc, 0x11, 0x85, 0x97, 0x19, 0x6a, 0x0b, 0x32] := by
  decide +kernel
/-- F-C3, both directions. -/
theorem test_aes256_appendixC :
    aesEnc ((List.range 32).map (BitVec.ofNat 8)) [0x00, 0x11, 0x22, 0x33, 0x44, 0x55, 0x66, 0x77, 0x88, 0x99, 0xaa, 0xbb, 0xcc, 0xdd, 0xee, 0xff] =
      [0x8e, 0xa2, 0xb7, 0xca, 0x51, 0x67, 0x45, 0xbf, 0xea, 0xfc, 0x49, 0x90, 0x4b, 0x49, 0x60, 0x89] ∧
    aesDec ((List.range 32).map (BitVec.ofNat 8)) [0x8e, 0xa2, 0xb7, 0xca, 0x51, 0x67, 0x45, 0xbf, 0xea, 0xfc, 0x49, 0x90, 0x4b, 0x49, 0x60, 0x89] =
      [0x00, 0x11, 0x22, 0x33, 0x44, 0x55, 0x66, 0x77, 0x88, 0x99, 0xaa, 0xbb, 0xcc, 0xdd, 0xee, 0xff] := by
  decide +kernel
/-- F-C2. -/
theorem test_aes192_appendixC :
    aesEnc ((List.range 24).map (BitVec.ofNat 8)) [0x00, 0x11, 0x22, 0x33, 0x44, 0x55, 0x66, 0x77, 0x88, 0x99, 0xaa, 0xbb, 0xcc, 0xdd, 0xee, 0xff] =
      [0xdd, 0xa9, 0x7c, 0xa4, 0x86, 0x4c, 0xdf, 0xe0, 0x6e, 0xaf, 0x70, 0xa0, 0xec, 0x0d, 0x71, 0x91] := by
  decide +kernel

/-! ## Padding (V-PAD, V-UNPAD) -/

theorem test_pad_hello : pad [0x68, 0x65, 0x6c, 0x6c, 0x6f] = [0x68, 0x65, 0x6c, 0x6c, 0x6f, 0x0b, 0x0b, 0x0b, 0x0b, 0x0b, 0x0b, 0x0b, 0x0b, 0x0b, 0x0b, 0x0b] := by decide
theorem test_pad_empty : pad [] = List.replicate 16 0x10 := by decide
theorem test_unpad_checks_every_byte : unpad (0x0f :: List.replicate 15 0x10) = .err .padding := by decide
theorem test_unpad_inconsistent : unpad (List.replicate 13 0 ++ [0x02, 0x03, 0x03]) = .err .padding := by decide
theorem test_unpad_three : unpad (List.replicate 13 0 ++ [0x03, 0x03, 0x03]) = .ok (List.replicate 13 0) := by decide
theorem test_unpad_zero : unpad (List.replicate 16 0) = .err .padding := by decide
theorem test_unpad_seventeen : unpad (List.replicate 15 0 ++ [0x11]) = .err .padding := by decide

/-! ## Small states: key K of the vectors, the bytes `d` as input -/

def hello : Bytes := [0x68, 0x65, 0x6c, 0x6c, 0x6f]
def iv0 : Vector Byte 16 := #v[0x00, 0x01, 0x02, 0x03, 0x04, 0x05, 0x06, 0x07, 0x08, 0x09, 0x0a, 0x0b, 0x0c, 0x0d, 0x0e, 0x0f]
/-- V-EC1's envelope. -/
def envelope : Bytes :=
  [0x00, 0x01, 0x02, 0x03, 0x04, 0x05, 0x06, 0x07, 0x08, 0x09, 0x0a, 0x0b, 0x0c, 0x0d, 0x0e, 0x0f] ++
  [0x7e, 0x92, 0x17, 0x3e, 0x20, 0x76, 0x9c, 0xd5, 0x6c, 0x3b, 0xaa, 0x92, 0x9e, 0x5c, 0x68, 0x1c]
/-- The envelope V-FOX. -/
def foxEnvelope : Bytes :=
  [0x00, 0x01, 0x02, 0x03, 0x04, 0x05, 0x06, 0x07, 0x08, 0x09, 0x0a, 0x0b, 0x0c, 0x0d, 0x0e, 0x0f] ++
  [0xc9, 0x80, 0x11, 0x22, 0x47, 0x44, 0x84, 0xb3, 0x60, 0x5e, 0x8d, 0x06, 0xea, 0xd2, 0x2c, 0x32] ++
  [0xe9, 0x10, 0xc9, 0x8c, 0x29, 0x75, 0x31, 0x32, 0xf2, 0xaa, 0xa1, 0xeb, 0xb2, 0xf3, 0x73, 0xd8]
/-- V-EE1's ciphertext. -/
def helloEcb : Bytes := [0x67, 0x4c, 0x7e, 0xf3, 0x8e, 0x78, 0xca, 0xbd, 0x9c, 0xec, 0x9c, 0x12, 0x58, 0x23, 0xa6, 0x39]

/-- Key K with KEY_LEN 16, the bytes `d` in IN, IN_LEN their number; the source answers IV0. -/
def idle (d : Bytes) : State :=
  { State.reset with
    keyLen := 16
    key := #v[0x33323130, 0x37363534, 0x62613938, 0x66656463, 0, 0, 0, 0]
    inLen := BitVec.ofNat 32 d.length, inbuf := cellsFrom 0 d, entropy := [.iv iv0] }

/-- The same with a job pending, as START leaves it. -/
def busy (c : Cmd) (m : BitVec 2) (d : Bytes) : State := (idle d).start c m false

/-- What the bus answered. -/
def answer : Host.Outcome State Fault Refusal → Option Response
  | .next t => t.response
  | _ => none

/-- The next state, or the state given where there is none. -/
def after (s : State) : Host.Outcome State Fault Refusal → State
  | .next t => t
  | _ => s

/-! ## Instructions -/

/-- V-NOP1: CTRL = 0x10, a write of 0x4 gives CTRL = 0x4. -/
theorem test_nop_idle :
    (after State.reset (exec (.nop 1 false) { State.reset with irqEn := true })).ctrlWord = 0x4 := by decide
/-- V-NOP3: busy with CTRL = 0x4, a write of 0x10 gives CTRL = 0x14, ACC_ERR stays 0. -/
theorem test_nop_busy :
    (after State.reset (exec (.nop 0 true) (busy .encrypt 1 hello))).ctrlWord = 0x14 ∧
    (after State.reset (exec (.nop 0 true) (busy .encrypt 1 hello))).accErr = false := by decide
/-- START: BUSY, and the old DONE and ERR gone (R150); STATUS reads 1. -/
theorem test_encCbc_start :
    (after State.reset (exec (.encCbc false) { idle hello with done := true, err := 3, mode := 1 })).statusWord = 1 := by
  decide
/-- V-EC1. -/
theorem test_encCbc_job : (busy .encrypt 0 hello).engineStep.result = envelope := by decide +kernel
/-- V-EE1. -/
theorem test_encEcb_job : (busy .encrypt 1 hello).engineStep.result = helloEcb := by decide +kernel
/-- V-EE5, whose second block is the pad block. -/
theorem test_encEcb_two_blocks :
    (busy .encrypt 1 [0x30, 0x31, 0x32, 0x33, 0x34, 0x35, 0x36, 0x37, 0x38, 0x39, 0x61, 0x62, 0x63, 0x64, 0x65, 0x66]).engineStep.result =
      [0x72, 0x72, 0x7e, 0x88, 0x1e, 0xdc, 0xfd, 0x01, 0x00, 0xa7, 0x18, 0x68, 0x79, 0x09, 0xb5, 0x65] ++
      [0x37, 0x72, 0x22, 0xe0, 0x61, 0xa9, 0x24, 0xc5, 0x91, 0xcd, 0x9c, 0x27, 0xea, 0x16, 0x3e, 0xd4] := by
  decide +kernel
/-- V-RSV2: KEY_LEN 0, ERR = 4, MODE 3 kept. -/
theorem test_encRsv :
    let u := (after State.reset (exec (.encRsv 3 false) State.reset)).engineStep
    u.statusWord = 0x42 ∧ u.mode = 3 := by decide
/-- V-DC3: the round trip of FOX. -/
theorem test_decCbc_job :
    (busy .decrypt 0 foxEnvelope).engineStep.result =
      [0x54, 0x68, 0x65, 0x20, 0x71, 0x75, 0x69, 0x63, 0x6b, 0x20, 0x62, 0x72, 0x6f, 0x77, 0x6e, 0x20, 0x66, 0x6f, 0x78, 0x21] := by
  decide +kernel
/-- V-DC4 and V-BOUND: 15 bytes are malformed, the IV alone is a padding error. -/
theorem test_decCbc_short :
    (busy .decrypt 0 (envelope.take 15)).engineStep.statusWord = 0x22 ∧
    (busy .decrypt 0 (envelope.take 16)).engineStep.statusWord = 0x32 := by decide
/-- V-DE1. -/
theorem test_decEcb_job : (busy .decrypt 1 helloEcb).engineStep.result = hello := by decide +kernel
/-- V-DE7: one block of zeros does not unpad. -/
theorem test_decEcb_padding :
    (busy .decrypt 1 (List.replicate 16 0)).engineStep.statusWord = 0x32 := by decide +kernel
/-- V-RSV4. -/
theorem test_decRsv :
    (after State.reset (exec (.decRsv 3 false) State.reset)).engineStep.statusWord = 0x42 := by decide
/-- V-ZZ1: STATUS reads 6 with ACC_ERR kept, KEY_LEN and the key are 0. -/
theorem test_zeroize :
    let u := (after State.reset (exec (.zeroize 0 false) { idle hello with accErr := true })).engineStep
    u.statusWord = 0x6 ∧ u.keyLen = 0 ∧ u.keyByte 0 = 0 ∧ u.inByte 0 = 0 ∧ u.inLen = 0 := by decide +kernel
/-- V-ZZ4. -/
theorem test_zeroize_busy :
    let u := after State.reset (exec (.zeroize 0 false) (busy .encrypt 1 hello))
    u.accErr = true ∧ u.job = some ⟨.encrypt, 1⟩ := by decide

/-! ## Bus accesses and reset (V-BUS, V-ST, V-IRQ, V-RST) -/

/-- V-BUS1, V-BUS2, V-BUS6. -/
theorem test_read_constants :
    answer (busAccess 0x00000 4 false 0 (idle hello)) = some (.data 0x5043011F) ∧
    answer (busAccess 0x00018 4 false 0 (idle hello)) = some (.data 0x00001000) ∧
    answer (busAccess 0x00020 4 false 0 (idle hello)) = some (.data 0) := by decide
/-- V-BUS3 to V-BUS5, V-BUS8, V-BUS10 to V-BUS12: the BusErrors, each cause at its edge. -/
theorem test_busErrors :
    ∀ a ∈ [(0x00000, 4, true), (0x00014, 4, true), (0x00018, 4, true), (0x0001C, 4, false), (0x00040, 4, true),
        (0x0FFFC, 4, false), (0x30000, 4, false), (0x3FFFC, 4, true), (0x11000, 4, false), (0x1FFFC, 4, true),
        (0x21020, 4, false), (0x2FFFC, 4, false), (0x20000, 4, true), (0x2101C, 4, true), (0x00004, 2, true),
        (0x00002, 4, false), (0x00005, 4, true)],
      answer (busAccess (BitVec.ofNat 18 a.1) a.2.1 a.2.2 7 (idle hello)) =
        some (.busError (BitVec.ofNat 18 a.1)) := by decide +kernel
/-- The accesses beside them that are none. -/
theorem test_no_busErrors :
    ∀ a ∈ [(0x00000, false), (0x00004, true), (0x00008, true), (0x0000C, true), (0x00010, true), (0x00014, false),
        (0x00018, false), (0x00020, true), (0x0003C, true), (0x10000, true), (0x10FFC, true), (0x20000, false),
        (0x2101C, false)],
      answer (busAccess (BitVec.ofNat 18 a.1) 4 a.2 7 (idle hello)) ≠ some (.busError (BitVec.ofNat 18 a.1)) := by
  decide +kernel
/-- V-BUS13, read back as well. -/
theorem test_in_word :
    let t := after State.reset (busAccess 0x10000 4 true 0x6C6C6568 State.reset)
    [t.inByte 0, t.inByte 1, t.inByte 2, t.inByte 3] = [0x68, 0x65, 0x6c, 0x6c] ∧
    answer (busAccess 0x10000 4 false 0 t) = some (.data 0x6C6C6568) := by decide +kernel
/-- V-BUS14: bytes 5 to 7 are gated. -/
theorem test_gate :
    let t := (idle []).finishOk hello
    answer (busAccess 0x20000 4 false 0 t) = some (.data 0x6C6C6568) ∧
    answer (busAccess 0x20004 4 false 0 t) = some (.data 0x0000006F) ∧
    answer (busAccess 0x20008 4 false 0 t) = some (.data 0) := by decide +kernel
/-- V-BUS16, V-BUS18: refused while busy. -/
theorem test_busy_refusals :
    let s := busy .encrypt 1 hello
    (after s (busAccess 0x0C 4 true 0x18 s)).keyLen = 16 ∧ (after s (busAccess 0x0C 4 true 0x18 s)).accErr = true ∧
    (after s (busAccess 0x04 4 true 0x15 s)).irqEn = true ∧ (after s (busAccess 0x04 4 true 0x15 s)).accErr = true := by
  decide
/-- V-BUS21. -/
theorem test_keyLen_low_bits : (after State.reset (busAccess 0x0C 4 true 0x12345610 State.reset)).keyLen = 0x10 := by decide
/-- V-ST1: STATUS 0x36, a write of 2 gives 0x34. -/
theorem test_status_write :
    let s := { State.reset with err := 3, accErr := true, done := true }
    s.statusWord = 0x36 ∧ (after s (busAccess 0x08 4 true 2 s)).statusWord = 0x34 := by decide
/-- V-IRQ1, V-IRQ4. -/
theorem test_irq :
    let s := { State.reset with irqEn := true, job := some ⟨.encrypt, 1⟩ }
    s.irq = false ∧ s.engineStep.irq = true ∧ (after s (exec (.decEcb true) s.engineStep)).irq = false := by decide
/-- V-RST6. -/
theorem test_reset_while_busy :
    let t := after State.reset (step { busy .encrypt 1 hello with inputs := [.reset true] })
    t.statusWord = 0 ∧ t.keyLen = 0 ∧ t.inbuf = [] ∧ t.resetLine = true := by decide
/-- The first instruction after reset is run by the next step. -/
theorem test_fetchWord : (after State.reset (step (State.reset.withFetchWord 32 0x15))).job = some ⟨.encrypt, 1⟩ := by decide
/-- LOADKEY of K writes KEY_LEN and KEY0 to KEY3 (the vectors' section 0). -/
theorem test_loadKey :
    loadKey {} [0x30, 0x31, 0x32, 0x33, 0x34, 0x35, 0x36, 0x37, 0x38, 0x39, 0x61, 0x62, 0x63, 0x64, 0x65, 0x66] =
      [.bus 0x0C 4 true 16, .bus 0x20 4 true 0x33323130, .bus 0x24 4 true 0x37363534, .bus 0x28 4 true 0x62613938,
       .bus 0x2C 4 true 0x66656463] := by decide

/-! ## Witnesses: each statement's hypotheses are met together -/

theorem witness_DecodeOfEncodeIsTheInstruction : (Instr.encRsv 3 true).wellFormed = true := by decide

def fetching : State := { State.reset with inputs := [.bus 0x4 4 true 0x5, .engine] }
theorem witness_StepRunsTheDecodedInstruction :
    fetching.resetLine = false ∧ fetching.inputs = .bus (fetching.config.pceBase + 4) 4 true 0x5 :: [.engine] ∧
    decode (wordBytes 0x5) = .ok (.encEcb false, []) ∧ decodeTableWord 32 0x5 = some (.encEcb false) :=
  ⟨rfl, rfl, rfl, rfl⟩

/-- An event at the first and at the last word of the window, a turn of the engine, and both levels of reset. -/
def facing (i : Input) : State := { State.reset with config := { pceBase := 0x40000 }, inputs := [i] }
theorem witness_StepTakesTheNextEvent :
    (facing (.bus 0x40000 4 false 0)).resetLine = false ∧
    (facing (.bus 0x40000 4 false 0)).inputs =
      .bus ((facing (.bus 0x40000 4 false 0)).config.pceBase + (0 : Offset).toNat) 4 false 0 :: [] ∧
    (facing (.bus 0x7FFFC 2 true 9)).inputs =
      .bus ((facing (.bus 0x7FFFC 2 true 9)).config.pceBase + (0x3FFFC : Offset).toNat) 2 true 9 :: [] ∧
    (facing .engine).inputs = .engine :: [] ∧ (facing (.reset true)).inputs = .reset true :: [] ∧
    (facing (.reset false)).inputs = .reset false :: [] := by decide

theorem witness_CommandWordsStart :
    cmdField 0x1 ≠ 0 ∧ cmdField 0x3 ≠ 0 ∧ (idle hello).job = none ∧ (busy .encrypt 0 hello).job ≠ none := by decide
theorem witness_EncryptCommandsStart : (idle hello).job = none := by decide
theorem witness_DecryptCommandsStart : (idle envelope).job = none := by decide
theorem witness_NopStoresModeAndIrqEn :
    cmdField 0xC = 0 ∧ (idle hello).job = none ∧ (busy .decrypt 0 hello).job ≠ none ∧
    ((idle hello).finishErr .padding).done = true := by decide

theorem witness_BusyWritesAreRefused :
    (busy .encrypt 0 hello).job ≠ none ∧ (busy .encrypt 0 hello).config.Legal ∧
    4 * 1023 < (busy .encrypt 0 hello).config.inCap ∧ (7 : Nat) < 8 := by decide
theorem witness_IdleWritesStoreTheOperand :
    (idle hello).job = none ∧ (idle hello).config.Legal ∧ 4 * 1023 < (idle hello).config.inCap := by decide
theorem witness_StatusWriteAcknowledges :
    BusyClean (busy .encrypt 0 hello) ∧ (busy .encrypt 0 hello).busy = true ∧ (0xFFFFFFFF : Word).getLsbD 1 = true :=
  ⟨⟨by decide, by decide, by decide, by simp [busy]⟩, by decide, by decide⟩
theorem witness_ReadsReturnTheRegisters :
    (idle hello).config.Legal ∧ 4 * 0 < (idle hello).config.inCap ∧ 4 * 1023 < (idle hello).config.inCap ∧
    4 * 1031 < (idle hello).config.outCap := by decide
theorem witness_BusErrorExactlyWhere : (idle hello).config.Legal := by decide

/-- A result of five bytes, and the same with other bytes beyond it. -/
def stale : State := (idle []).finishOk hello
theorem witness_OutputGateHidesStaleBytes :
    (∀ i, i < stale.outLen.toNat →
      State.outByte { stale with outbuf := cellsFrom 0 (hello ++ [0xAA, 0xBB]) } i = stale.outByte i) ∧
    (idle hello).config.Legal ∧ (idle hello).outLen = 0 ∧ 4 * 1031 < (idle hello).config.outCap := by decide +kernel
theorem witness_ReadAfterWriteReturnsIt :
    (idle hello).job = none ∧ (idle hello).config.Legal ∧ 4 * 1023 < (idle hello).config.inCap := by decide
theorem witness_KeyWritesSetTheKeyBytes : (idle hello).job = none ∧ (0 : Nat) < 8 ∧ (7 : Nat) < 8 := by decide

/-- An instance whose window starts at 0x40000. -/
def moved (addr : Nat) : State :=
  { State.reset with config := { pceBase := 0x40000 }, inputs := [.bus addr 4 true 0x5] }
theorem witness_OtherAddressesAreNotDecoded :
    (moved 0x3FFFC).inputs = [.bus 0x3FFFC 4 true 0x5] ∧ 0x3FFFC < (moved 0x3FFFC).config.pceBase ∧
    (moved 0x80000).inputs = [.bus 0x80000 4 true 0x5] ∧ (moved 0x80000).config.pceBase + 0x40000 ≤ 0x80000 := by
  decide

/-- Each clause of R227's table is met. -/
theorem witness_ChecksRunInOrder :
    ¬LegalKeyLen ({ idle hello with keyLen := 17 }).keyLen.toNat ∧ LegalKeyLen (idle hello).keyLen.toNat ∧
    ({ idle hello with inLen := 4097 }).config.inCap < ({ idle hello with inLen := 4097 }).inLen.toNat ∧
    (idle hello).inLen.toNat ≤ (idle hello).config.inCap ∧ (idle hello).inLen.toNat < 16 ∧
    (idle (envelope.take 16)).inLen.toNat - 16 = 0 ∧ ((idle (envelope.take 17)).inLen.toNat - 16) % 16 ≠ 0 ∧
    ((idle envelope).inLen.toNat - 16 ≠ 0 ∧ ((idle envelope).inLen.toNat - 16) % 16 = 0) ∧
    ({ idle hello with entropy := [.fail] }).nextDraw = .fail ∧ (idle hello).nextDraw = .iv iv0 := by decide

theorem witness_CompletionWritesTheOutcome :
    (busy .encrypt 1 hello).job = some ⟨.encrypt, 1⟩ ∧ (busy .encrypt 1 hello).config.Legal ∧
    (busy .encrypt 1 hello).jobResult ⟨.encrypt, 1⟩ = .ok helloEcb ∧
    (busy .decrypt 1 hello).job = some ⟨.decrypt, 1⟩ ∧
    (busy .decrypt 1 hello).jobResult ⟨.decrypt, 1⟩ = .err .padding := by decide +kernel
theorem witness_EncEcbResult :
    (idle hello).job = none ∧ (idle hello).config.Legal ∧ LegalKeyLen (idle hello).keyLen.toNat ∧
    (idle hello).inLen.toNat ≤ (idle hello).config.inCap := by decide
theorem witness_EncCbcResult :
    (idle hello).job = none ∧ (idle hello).config.Legal ∧ LegalKeyLen (idle hello).keyLen.toNat ∧
    (idle hello).inLen.toNat ≤ (idle hello).config.inCap ∧ (idle hello).nextDraw = .iv iv0 := by decide
def failing : State := { idle hello with entropy := [.fail] }
theorem witness_EncCbcEntropyFailure :
    failing.job = none ∧ LegalKeyLen failing.keyLen.toNat ∧ failing.inLen.toNat ≤ failing.config.inCap ∧
    failing.nextDraw = .fail := by decide
theorem witness_ReservedModesEndWithCipherError : (idle hello).job = none ∧ ((3 : BitVec 2) = 2 ∨ (3 : BitVec 2) = 3) := by
  decide
theorem witness_DecEcbResult :
    (idle helloEcb).job = none ∧ (idle helloEcb).config.Legal ∧ LegalKeyLen (idle helloEcb).keyLen.toNat ∧
    (idle helloEcb).inLen.toNat ≤ (idle helloEcb).config.inCap ∧ (idle helloEcb).inLen.toNat ≠ 0 ∧
    (idle helloEcb).inLen.toNat % 16 = 0 ∧
    unpad (ecbDec (idle helloEcb).jobKey (idle helloEcb).jobData) = .ok hello := by decide +kernel
theorem witness_DecCbcResult :
    (idle envelope).job = none ∧ (idle envelope).config.Legal ∧ LegalKeyLen (idle envelope).keyLen.toNat ∧
    (idle envelope).inLen.toNat ≤ (idle envelope).config.inCap ∧ 32 ≤ (idle envelope).inLen.toNat ∧
    (idle envelope).inLen.toNat % 16 = 0 ∧
    unpad (cbcDec (idle envelope).jobKey (slice (idle envelope).inByte 0 16)
      (slice (idle envelope).inByte 16 (idle envelope).inLen.toNat)) = .ok hello := by decide +kernel
theorem witness_DecryptErrorsAreReported :
    (idle hello).job = none ∧ (idle hello).jobResult ⟨.decrypt, 0⟩ = .err .malformedEnvelope ∧
    (idle hello).jobResult ⟨.decrypt, 1⟩ = .err .padding := by decide
theorem witness_ZeroizeClearsEverything : (idle hello).job = none ∧ (busy .encrypt 1 hello).job ≠ none := by decide
theorem witness_EngineRestsWithoutAJob :
    ({ idle hello with inputs := [.engine] }).job = none ∧
    ({ idle hello with inputs := [.engine] }).inputs = [.engine] := by decide

theorem witness_IvIsRequestedOnlyByEncCbc :
    (busy .encrypt 0 hello).job = some ⟨.encrypt, 0⟩ ∧ LegalKeyLen (busy .encrypt 0 hello).keyLen.toNat ∧
    (busy .encrypt 0 hello).inLen.toNat ≤ (busy .encrypt 0 hello).config.inCap ∧
    (busy .encrypt 1 hello).job = some ⟨.encrypt, 1⟩ ∧ failing.nextDraw = .fail ∧
    (idle hello).entropy = .iv iv0 :: [] := by decide

/-- The same operands, with other bytes beyond the lengths. -/
def beyond (s : State) : State := { s with key := s.key.set 7 0xFFFFFFFF, inbuf := s.inbuf.store 5 [0xEE], accErr := true }
theorem witness_JobDependsOnItsOperandsAlone :
    (beyond (idle hello)).config.inCap = (idle hello).config.inCap ∧ (beyond (idle hello)).keyLen = (idle hello).keyLen ∧
    (beyond (idle hello)).inLen = (idle hello).inLen ∧ (beyond (idle hello)).nextDraw = (idle hello).nextDraw ∧
    (∀ i, i < (idle hello).keyLen.toNat → (beyond (idle hello)).keyByte i = (idle hello).keyByte i) ∧
    (∀ i, i < (idle hello).inLen.toNat → (beyond (idle hello)).inByte i = (idle hello).inByte i) := by decide +kernel
theorem witness_EcbEncryptionIsDeterministic :
    let s := busy .encrypt 1 hello
    s.job = some ⟨.encrypt, 1⟩ ∧ (beyond s).job = some ⟨.encrypt, 1⟩ ∧ s.config.Legal ∧ (beyond s).config = s.config ∧
    (beyond s).keyLen = s.keyLen ∧ (beyond s).inLen = s.inLen ∧
    (∀ i, i < s.keyLen.toNat → (beyond s).keyByte i = s.keyByte i) ∧
    (∀ i, i < s.inLen.toNat → (beyond s).inByte i = s.inByte i) := by decide +kernel
theorem witness_EnvelopesDifferExactlyAsDraws : LegalKeyLen 24 ∧ 4096 ≤ 4096 := by decide
theorem witness_EncryptLengthLaw :
    (busy .encrypt 0 hello).config.Legal ∧ (busy .encrypt 0 hello).job = some ⟨.encrypt, 0⟩ ∧
    (busy .encrypt 0 hello).jobResult ⟨.encrypt, 0⟩ = .ok envelope ∧
    (busy .encrypt 1 hello).job = some ⟨.encrypt, 1⟩ ∧
    (busy .encrypt 1 hello).jobResult ⟨.encrypt, 1⟩ = .ok helloEcb := by decide +kernel
theorem witness_CbcIsSixteenLongerThanEcb :
    (busy .encrypt 1 hello).config.Legal ∧ (busy .encrypt 0 hello).config.Legal ∧
    (busy .encrypt 0 hello).inLen = (busy .encrypt 1 hello).inLen ∧
    (busy .encrypt 1 hello).job = some ⟨.encrypt, 1⟩ ∧ (busy .encrypt 0 hello).job = some ⟨.encrypt, 0⟩ ∧
    (busy .encrypt 1 hello).jobResult ⟨.encrypt, 1⟩ = .ok helloEcb ∧
    (busy .encrypt 0 hello).jobResult ⟨.encrypt, 0⟩ = .ok envelope := by decide +kernel
theorem witness_DecryptLengthLaw :
    (busy .decrypt 0 envelope).config.Legal ∧ (busy .decrypt 0 envelope).job = some ⟨.decrypt, 0⟩ ∧
    (busy .decrypt 0 envelope).jobResult ⟨.decrypt, 0⟩ = .ok hello ∧
    (busy .decrypt 1 helloEcb).job = some ⟨.decrypt, 1⟩ ∧
    (busy .decrypt 1 helloEcb).jobResult ⟨.decrypt, 1⟩ = .ok hello := by decide +kernel

theorem witness_AesInverseLaw :
    LegalKeyLen (List.replicate 16 (0 : Byte)).length ∧ LegalKeyLen (List.replicate 24 (0 : Byte)).length ∧
    LegalKeyLen (List.replicate 32 (0 : Byte)).length ∧ helloEcb.length = 16 := by decide
theorem witness_PaddingLaws : 0 < helloEcb.length ∧ helloEcb.length % 16 = 0 := by decide
theorem witness_ModesInvert :
    LegalKeyLen (List.replicate 32 (0 : Byte)).length ∧ iv0.toList.length = 16 ∧ envelope.length % 16 = 0 := by decide
theorem witness_DecryptUndoesEncrypt :
    (busy .encrypt 0 hello).config.Legal ∧ (busy .decrypt 0 envelope).config = (busy .encrypt 0 hello).config ∧
    (busy .encrypt 0 hello).job = some ⟨.encrypt, 0⟩ ∧
    (busy .encrypt 0 hello).jobResult ⟨.encrypt, 0⟩ = .ok envelope ∧
    (busy .decrypt 0 envelope).job = some ⟨.decrypt, 0⟩ ∧
    (busy .decrypt 0 envelope).keyLen = (busy .encrypt 0 hello).keyLen ∧
    (∀ i, i < (busy .encrypt 0 hello).keyLen.toNat →
      (busy .decrypt 0 envelope).keyByte i = (busy .encrypt 0 hello).keyByte i) ∧
    (busy .decrypt 0 envelope).inLen.toNat = envelope.length ∧
    (∀ i, i < envelope.length → envelope[i]? = some ((busy .decrypt 0 envelope).inByte i)) ∧
    envelope.length ≤ (busy .encrypt 0 hello).config.inCap := by decide +kernel

/-- The smallest buffer, IN_CAP = 32, with `n` zero bytes in it. -/
def small (n : Nat) : State := { idle (List.replicate n 0) with config := { inCap := 32 } }
/-- The first message length whose output does not fit, and the last whose output does, in both modes. -/
theorem witness_DecryptUndoesEncrypt_fit :
    (small 15).config.Legal ∧
    (match (small 15).jobResult ⟨.encrypt, 0⟩ with | .ok e => e.length | .err _ => 0) = 32 ∧
    (match (small 16).jobResult ⟨.encrypt, 0⟩ with | .ok e => e.length | .err _ => 0) = 48 ∧
    (match (small 31).jobResult ⟨.encrypt, 1⟩ with | .ok e => e.length | .err _ => 0) = 32 ∧
    (match (small 32).jobResult ⟨.encrypt, 1⟩ with | .ok e => e.length | .err _ => 0) = 48 := by decide +kernel

/-- V-TAMPER, byte 0: the envelope altered in the IV. -/
def tampered : Bytes := 0x01 :: foxEnvelope.drop 1
theorem witness_EarlyTamperingIsNotDetected :
    decryptJob 4096 0 16 (idle []).keyByte (idle foxEnvelope).inByte 48 =
      .ok [0x54, 0x68, 0x65, 0x20, 0x71, 0x75, 0x69, 0x63, 0x6b, 0x20, 0x62, 0x72, 0x6f, 0x77, 0x6e, 0x20, 0x66, 0x6f,
        0x78, 0x21] ∧
    48 ≤ 48 ∧
    (∀ i, i < 48 → 48 - 32 ≤ i → (idle tampered).inByte i = (idle foxEnvelope).inByte i) := by decide +kernel

theorem witness_EveryStepKeepsInv : Inv State.reset ∧ step State.reset = .next State.reset :=
  ⟨⟨by decide, by decide, by decide, by decide, by simp [State.reset], empty_bufferOk _, empty_bufferOk _,
    ⟨by decide, by decide, by decide, by simp [State.reset]⟩, by simp [State.reset]⟩, rfl⟩
theorem witness_NoStepChangesTheConfiguration : ∃ t, step fetching = .next t ∧ t.job = some ⟨.encrypt, 1⟩ :=
  ⟨_, rfl, by decide⟩

/-- A pending job, with events to come. -/
def pending (i : List Input) : State := { busy .encrypt 1 hello with inputs := i }
theorem witness_PendingJobIsHeldCompletedOrReset :
    (∃ t, step (pending [.bus 0x10 4 true 9]) = .next t ∧ t.job = some ⟨.encrypt, 1⟩) ∧
    (∃ t, step (pending [.engine]) = .next t ∧ t.job = none) ∧
    (∃ t, step (pending [.reset true]) = .next t ∧ t.job = none) :=
  ⟨⟨_, rfl, by decide⟩, ⟨_, rfl, by decide +kernel⟩, ⟨_, rfl, by decide⟩⟩
theorem witness_PendingJobCompletes :
    (pending [.bus 0x10 4 true 9]).job = some ⟨.encrypt, 1⟩ ∧ (pending [.bus 0x10 4 true 9]).resetLine = false ∧
    ∀ level, Input.reset level ∉ (pending [.bus 0x10 4 true 9]).inputs :=
  ⟨rfl, rfl, fun level => by cases level <;> decide⟩
theorem witness_AccErrIsSticky :
    (∃ t, step { idle hello with accErr := true, inputs := [.bus 0x8 4 true 4] } = .next t ∧ t.accErr = false) ∧
    (∀ a ∈ [0x0C, 0x10, 0x20, 0x3C, 0x10000, 0x10FFC, 0x04],
      (after State.reset (step (pending [.bus a 4 true 9]))).accErr = true) :=
  ⟨⟨_, rfl, by decide⟩, by decide⟩
theorem witness_IrqChangesOnlyAtItsControls :
    (∃ t, step { idle hello with done := true, inputs := [.bus 0x4 4 true 0x10] } = .next t ∧ t.irq = true) ∧
    (∃ t, step { idle hello with done := true, irqEn := true, inputs := [.bus 0x8 4 true 2] } = .next t ∧ t.irq = false) ∧
    (∃ t, step { busy .zeroize 0 hello with irqEn := true } = .next t ∧ t.irq = true) ∧
    (∃ t, step { idle hello with done := true, irqEn := true, inputs := [.reset true] } = .next t ∧ t.irq = false) :=
  ⟨⟨_, rfl, by decide⟩, ⟨_, rfl, by decide⟩, ⟨_, rfl, by decide +kernel⟩, ⟨_, rfl, by decide⟩⟩

theorem witness_ResetEntersTheResetState :
    (pending [.reset true, .reset false]).inputs = .reset true :: [.reset false] ∧
    (pending [.reset true, .reset false]).resetLine = false := by decide
/-- A PCE held in reset, with an access to come. -/
def held : State := { State.reset with resetLine := true, inputs := [.bus 0x10 4 true 9] }
theorem witness_NothingChangesWhileResetIsAsserted :
    Inv held ∧ held.resetLine = true ∧ ∃ t, step held = .next t :=
  ⟨⟨by decide, by decide, by decide, by decide, by simp [held, State.reset], empty_bufferOk _, empty_bufferOk _,
    ⟨by decide, by decide, by decide, by simp [held, State.reset]⟩,
    fun _ => ⟨rfl, rfl, rfl, rfl, rfl, rfl, rfl, rfl, rfl, rfl, rfl, rfl⟩⟩, rfl, _, rfl⟩

end Sys2Proof.Tests
end

/-! ## Every step keeps the invariant: one lemma per operation, then one per layer of the step -/

namespace Sys2Proof.Machine

/-- With no job pending nothing of an earlier result has to be hidden. -/
theorem BusyClean.of_idle {s : State} (hj : s.job = none) : BusyClean s := by
  constructor <;> simp [State.busy, hj]

/-- While reset is released the clause about reset asks nothing. -/
theorem heldInReset_of_released {s : State} (hr : s.resetLine = false) : s.resetLine = true → HeldInReset s :=
  fun h => absurd h (by simp [hr])

/-! The operations -/

theorem Inv.respond {s : State} (h : Inv s) (r : Response) : Inv (s.respond r) := h.ports _ _ _ _

/-- While reset is released the invariant reads none of IRQ_EN, ACC_ERR, KEY_LEN, the key words and IN_LEN. -/
theorem Inv.registers {s : State} (h : Inv s) (hr : s.resetLine = false) (q a : Bool) (kl : BitVec 8)
    (k : Vector Word 8) (il : Word) :
    Inv { s with irqEn := q, accErr := a, keyLen := kl, key := k, inLen := il } :=
  { h with
    busy := { h.busy with }
    inReset := heldInReset_of_released hr }

theorem Inv.start {s : State} (h : Inv s) (hr : s.resetLine = false) (c : Cmd) (m : BitVec 2) (q : Bool) :
    Inv (s.start c m q) where
  config := h.config
  errCode := by simp
  outLen := by simp
  errNoOutput := by simp
  outKnown := by simp
  inbuf := h.inbuf
  outbuf := h.outbuf
  busy := by constructor <;> simp
  inReset := heldInReset_of_released hr

/-- MODE may change only while no job has latched it. -/
theorem Inv.storeCtrl {s : State} (h : Inv s) (hr : s.resetLine = false) (hj : s.job = none) (m : BitVec 2)
    (q : Bool) : Inv (s.storeCtrl m q) :=
  { h with busy := .of_idle hj, inReset := heldInReset_of_released hr }

theorem Inv.acknowledge {s : State} (h : Inv s) (hr : s.resetLine = false) (v : Word) : Inv (s.acknowledge v) :=
  { h with
    busy := { h.busy with notDone := fun hb => by simp [h.busy.notDone hb] }
    inReset := heldInReset_of_released hr }

theorem Inv.storeInbuf {s : State} (h : Inv s) (hr : s.resetLine = false) {i : Nat} {bs : Bytes}
    (hb : i + bs.length ≤ s.config.inCap) : Inv { s with inbuf := s.inbuf.store i bs } :=
  { h with
    inbuf := store_bufferOk h.inbuf hb
    busy := { h.busy with }
    inReset := heldInReset_of_released hr }

/-- ZEROIZE keeps every byte below OUT_LEN known: OUT_LEN is at most OUT_CAP, and all OUT_CAP bytes are now 0. -/
theorem Inv.clearOperands {s : State} (h : Inv s) (hr : s.resetLine = false) : Inv s.clearOperands :=
  { h with
    outKnown := fun i (hi : i < s.outLen.toNat) => by
      simp [zeros_read (Nat.lt_of_lt_of_le hi h.outLen)]
    inbuf := zeros_bufferOk _
    outbuf := zeros_bufferOk _
    busy := { h.busy with }
    inReset := heldInReset_of_released hr }

/-- A completion with a result that fits: the bytes below the new OUT_LEN are the bytes just stored. -/
theorem Inv.finishOk {s : State} (h : Inv s) (hr : s.resetLine = false) {out : Bytes}
    (hfit : out.length ≤ s.config.outCap) : Inv (s.finishOk out) where
  config := h.config
  errCode := by simp
  outLen := Nat.le_trans (by simpa using Nat.mod_le _ _) hfit
  errNoOutput := by simp
  outKnown i hi := by
    have hlen : i < out.length := Nat.lt_of_lt_of_le hi (by simpa using Nat.mod_le _ _)
    simp [store_read, hlen]
  inbuf := h.inbuf
  outbuf := store_bufferOk h.outbuf (by simpa using hfit)
  busy := .of_idle rfl
  inReset := heldInReset_of_released hr

theorem Inv.finishErr {s : State} (h : Inv s) (hr : s.resetLine = false) (k : ErrorKind) : Inv (s.finishErr k) where
  config := h.config
  errCode := (code_range k).2
  outLen := by simp
  errNoOutput := by simp
  outKnown := by simp
  inbuf := h.inbuf
  outbuf := h.outbuf
  busy := .of_idle rfl
  inReset := heldInReset_of_released hr

theorem Inv.complete {s : State} (h : Inv s) (hr : s.resetLine = false) {r : JobResult}
    (hfit : ∀ out, r = .ok out → out.length ≤ s.config.outCap) : Inv (s.complete r) := by
  cases r with
  | ok out => exact h.finishOk hr (hfit out rfl)
  | err k => exact h.finishErr hr k

theorem Inv.assertReset {s : State} (h : Inv s) : Inv s.assertReset where
  config := h.config
  errCode := by simp
  outLen := by simp
  errNoOutput := by simp
  outKnown := by simp
  inbuf := empty_bufferOk _
  outbuf := empty_bufferOk _
  busy := .of_idle rfl
  inReset _ := ⟨rfl, rfl, rfl, rfl, rfl, rfl, rfl, rfl, rfl, rfl, rfl, rfl⟩

theorem Inv.releaseReset {s : State} (h : Inv s) : Inv { s with resetLine := false } :=
  { h with
    busy := { h.busy with }
    inReset := heldInReset_of_released rfl }

/-! The engine -/

@[simp] theorem State.takeIv_config (s : State) (j : Job) : (s.takeIv j).config = s.config := by
  rcases takeIv_cases s j with h | h <;> simp [h]

@[simp] theorem State.takeIv_resetLine (s : State) (j : Job) : (s.takeIv j).resetLine = s.resetLine := by
  rcases takeIv_cases s j with h | h <;> simp [h]

/-- What a job writes beside its completion: nothing, or the writes of ZEROIZE (R201). -/
theorem jobClears_cases (s : State) (j : Job) : s.jobClears j = s ∨ s.jobClears j = s.clearOperands := by
  unfold State.jobClears; split
  · exact .inr rfl
  · exact .inl rfl

@[simp] theorem State.jobClears_config (s : State) (j : Job) : (s.jobClears j).config = s.config := by
  rcases jobClears_cases s j with h | h <;> simp [h]

@[simp] theorem State.jobClears_resetLine (s : State) (j : Job) : (s.jobClears j).resetLine = s.resetLine := by
  rcases jobClears_cases s j with h | h <;> simp [h]

theorem Inv.takeIv {s : State} (h : Inv s) (j : Job) : Inv (s.takeIv j) := by
  rcases takeIv_cases s j with e | e <;> rw [e]
  · exact h
  · exact h.ports _ _ _ _

theorem Inv.jobClears {s : State} (h : Inv s) (hr : s.resetLine = false) (j : Job) : Inv (s.jobClears j) := by
  rcases jobClears_cases s j with e | e <;> rw [e]
  · exact h
  · exact h.clearOperands hr

theorem Inv.engineStep {s : State} (h : Inv s) (hr : s.resetLine = false) : Inv s.engineStep := by
  cases hj : s.job with
  | none => rwa [engineStep_idle hj]
  | some j =>
    rw [engineStep_pending hj]
    have hclear : Inv ((s.takeIv j).jobClears j) := (h.takeIv j).jobClears (by simpa using hr) j
    exact hclear.complete (by simpa using hr) fun out ho => by simpa using jobResult_fits h.config ho

theorem Inv.engineTurn {s : State} (h : Inv s) : Inv s.engineTurn := by
  unfold State.engineTurn
  cases hr : s.resetLine with
  | false => exact h.engineStep hr
  | true => exact h

theorem Inv.setResetLine {s : State} (h : Inv s) (level : Bool) : Inv (s.setResetLine level) := by
  unfold State.setResetLine
  cases level with
  | false => exact h.releaseReset
  | true =>
    cases s.resetLine with
    | false => exact h.assertReset
    | true => exact h

/-! The bus -/

theorem Inv.command {s : State} (h : Inv s) (hr : s.resetLine = false) (c : Cmd) (m : BitVec 2) (q : Bool) :
    Inv (s.command c m q) := by
  cases hj : s.job with
  | none => exact command_idle hj c m q ▸ (h.start hr c m q).respond _
  | some j => exact command_busy (busy_of_some hj) c m q ▸ (h.registers hr q true _ _ _).respond _

theorem Inv.configure {s : State} (h : Inv s) (hr : s.resetLine = false) (m : BitVec 2) (q : Bool) :
    Inv (s.configure m q) := by
  cases hj : s.job with
  | none => exact configure_idle hj m q ▸ (h.storeCtrl hr hj m q).respond _
  | some j => exact configure_busy (busy_of_some hj) m q ▸ (h.registers hr q _ _ _ _).respond _

/-- Every access made while reset is released keeps the invariant. -/
theorem AccessEffect.keeps_inv {off : Offset} {size : Nat} {write : Bool} {v : Word} {s t : State}
    (he : AccessEffect off size write v s t) (h : Inv s) (hr : s.resetLine = false) : Inv t := by
  cases he with
  | answered r => exact h.respond r
  | command c => exact h.command hr c _ _
  | configure => exact h.configure hr _ _
  | acknowledged => exact (h.acknowledge hr v).respond _
  | refused => exact (h.registers hr _ true _ _ _).respond _
  | keyLen => exact (h.registers hr _ _ _ _ _).respond _
  | inLen => exact (h.registers hr _ _ _ _ _).respond _
  | key j => exact (h.registers hr _ _ _ _ _).respond _
  | inWord j hw ha hl => exact (h.storeInbuf hr (inWord_inside h.config ha hl)).respond _

/-! The step -/

theorem EventEffect.keeps_inv {i : Input} {s t : State} (he : EventEffect i s t) (h : Inv s) : Inv t := by
  cases he with
  | elsewhere => exact h.ports _ _ _ _
  | inReset => exact h.ports _ _ _ _
  | access _ _ _ _ _ _ _ _ hr he => exact he.keeps_inv h hr
  | engine => exact h.engineTurn
  | reset level => exact h.setResetLine level

/-- Settles O46, by what a step can do: a turn of the engine, or one event on a state that differs in its schedule. -/
theorem everyStepKeepsInv : Obligations.EveryStepKeepsInv := by
  intro s t h hs
  obtain ⟨-, rfl⟩ | ⟨i, rest, -, he⟩ := step_effect hs
  · exact h.engineTurn
  · exact he.keeps_inv (h.ports rest _ _ _)

end Sys2Proof.Machine

/-! ## The state: what reads hide, what the key store, the job and the step read and leave, and reset -/

namespace Sys2Proof.Machine

/-! ### Reads that hide state: the key words and the bytes at OUT_LEN or above -/

/-- Two states that show the same data at every location answer every read alike. -/
theorem busAccess_read_congr {s t : State} (hd : ∀ l, t.readData l = s.readData l) (hc : t.config = s.config)
    (off : Offset) (size : Nat) (v : Word) :
    ∃ r, busAccess off size false v s = .next (s.respond r) ∧ busAccess off size false v t = .next (t.respond r) := by
  unfold busAccess
  cases acceptedShape off size with
  | false => exact ⟨_, rfl, rfl⟩
  | true =>
    simp only [State.busRead, hc, hd]
    cases s.readData (locate s.config off) with
    | none => exact ⟨_, rfl, rfl⟩
    | some d => exact ⟨_, rfl, rfl⟩

/-- No location shows a key word: the KEY words read 0 (R29, R64). -/
theorem readData_key (s : State) (k : Vector Word 8) (l : Location) :
    State.readData { s with key := k } l = s.readData l := by
  cases l <;> rfl

/-- Settles O18: the data of a read does not mention the key words. -/
theorem keysCannotBeReadBack : Obligations.KeysCannotBeReadBack := fun off size v s k =>
  busAccess_read_congr (readData_key s k) rfl off size v

/-- The gate shows only bytes below OUT_LEN (R32). -/
theorem outWord_congr {s t : State} (hb : ∀ i, i < s.outLen.toNat → t.outByte i = s.outByte i)
    (hl : t.outLen = s.outLen) (j : Nat) : t.outWord j = s.outWord j := by
  have hg : ∀ i, t.gatedOutByte i = s.gatedOutByte i := fun i => by
    unfold State.gatedOutByte
    rw [hl]
    split
    · next hi => exact hb i hi
    · rfl
  simp only [State.outWord, hg]

/-- Of the locations only the OUT words show the output buffer, and they show it through the gate (R32, R64). -/
theorem readData_outbuf {s : State} {m : Memory}
    (hb : ∀ i, i < s.outLen.toNat → State.outByte { s with outbuf := m } i = s.outByte i) (l : Location) :
    State.readData { s with outbuf := m } l = s.readData l := by
  cases l with
  | outWord j => exact congrArg some (outWord_congr hb rfl j)
  | _ => rfl

/-- With OUT_LEN = 0 the gate shows no byte. -/
theorem outWord_of_outLen_zero {s : State} (h : s.outLen = 0) (j : Nat) : s.outWord j = 0 := by
  have hg : ∀ i, s.gatedOutByte i = 0 := fun i => if_neg (by simp [h])
  simp only [State.outWord, hg]
  rfl

/-- Settles O19: the data of a read passes the output buffer through the gate, which is shut when OUT_LEN = 0. -/
theorem outputGateHidesStaleBytes : Obligations.OutputGateHidesStaleBytes := by
  refine ⟨fun off size v s m hb => busAccess_read_congr (readData_outbuf hb) rfl off size v,
    fun s j v hp h0 hj => ?_⟩
  have hoff : (BitVec.ofNat 18 (0x20000 + 4 * j)).toNat % 4 = 0 := by rw [BitVec.toNat_ofNat]; omega
  have hdata : s.readData (locate s.config (BitVec.ofNat 18 (0x20000 + 4 * j))) = some 0 := by
    rw [locate_outWord hp hj, State.readData, outWord_of_outLen_zero h0]
  rw [busAccess_read hoff, busRead_data hdata]
  rfl

/-! ### A KEY write and the key bytes -/

/-- A KEY word holds four key bytes, little-endian (R30). -/
theorem keyByte_set (s : State) (j : Fin 8) (v : Word) (i : Nat) :
    State.keyByte { s with key := s.key.set j v } i = if i / 4 = j then wordByte v (i % 4) else s.keyByte i := by
  have hj : j.val < s.key.toList.length := by simp
  unfold State.keyByte
  rw [Vector.toList_set, List.getD_eq_getElem?_getD, List.getElem?_set, List.getD_eq_getElem?_getD]
  by_cases h : i / 4 = j
  · rw [if_pos h.symm, if_pos hj, if_pos h]; rfl
  · rw [if_neg (Ne.symm h), if_neg h]

/-- An accepted write of KEYj while idle (R65). -/
theorem busAccess_write_key {s : State} (h : s.job = none) (j : Fin 8) (v : Word) :
    busAccess (BitVec.ofNat 18 (0x20 + 4 * j.val)) 4 true v s =
      .next (State.respond .okay { s with key := s.key.set j v }) := by
  have hoff : (BitVec.ofNat 18 (0x20 + 4 * j.val)).toNat % 4 = 0 := by rw [BitVec.toNat_ofNat]; omega
  rw [busAccess_write hoff]
  simp [busWrite, locate_key, State.operandWrite, busy_of_none h]

/-- Settles O21: the write sets KEY word j, whose bytes are the key bytes 4j to 4j + 3. -/
theorem keyWritesSetTheKeyBytes : Obligations.KeyWritesSetTheKeyBytes := by
  intro s v j hidle hj
  refine ⟨_, busAccess_write_key hidle ⟨j, hj⟩ v, fun i _ => (keyByte_set s ⟨j, hj⟩ v i).trans ?_⟩
  show (if i / 4 = j then _ else _) = _
  by_cases h : i / 4 = j
  · rw [if_pos h, if_pos (by omega), wordByte, show i % 4 = i - 4 * j by omega]
  · rw [if_neg h, if_neg (by omega)]

/-! ### The operands of a job -/

/-- The encrypt body reads the key bytes below KEY_LEN and the input bytes below IN_LEN (R160). -/
theorem encryptJob_congr {inCap keyLen inLen : Nat} {m : BitVec 2} {keyb keyb' inb inb' : Nat → Byte} {d : Draw}
    (hk : slice keyb' 0 keyLen = slice keyb 0 keyLen) (hi : slice inb' 0 inLen = slice inb 0 inLen) :
    encryptJob inCap m keyLen keyb' inb' inLen d = encryptJob inCap m keyLen keyb inb inLen d := by
  unfold encryptJob
  rw [hk, hi]

/-- The ciphertext a decrypt body reads lies below IN_LEN (R180). -/
theorem cipherPart_congr {m : BitVec 2} {inb inb' : Nat → Byte} {n : Nat} (h : ∀ i, i < n → inb' i = inb i) :
    cipherPart m inb' n = cipherPart m inb n := by
  unfold cipherPart
  split <;> exact slice_congr fun i _ hi => h i hi

/-- An envelope of at least one block is deciphered from the bytes below IN_LEN alone, the IV included (R180). -/
theorem decipher_congr {m : BitVec 2} {k : Bytes} {inb inb' : Nat → Byte} {n : Nat} (h : ∀ i, i < n → inb' i = inb i)
    (hn : m = 0 → 16 ≤ n) : decipher m k inb' n = decipher m k inb n := by
  unfold decipher
  rw [cipherPart_congr h]
  split
  · next hm =>
    have hiv : slice inb' 0 Config.block = slice inb 0 Config.block :=
      slice_congr fun i _ hi => h i (Nat.lt_of_lt_of_le hi (hn hm))
    rw [hiv]
  · rfl

/-- The decrypt body reads the key bytes below KEY_LEN and the input bytes below IN_LEN: check 4 keeps an envelope too
short for its IV away from the cipher (R180). -/
theorem decryptJob_congr {inCap keyLen inLen : Nat} {m : BitVec 2} {keyb keyb' inb inb' : Nat → Byte}
    (hk : slice keyb' 0 keyLen = slice keyb 0 keyLen) (hi : ∀ i, i < inLen → inb' i = inb i) :
    decryptJob inCap m keyLen keyb' inb' inLen = decryptJob inCap m keyLen keyb inb inLen := by
  unfold decryptJob
  rw [hk, cipherPart_congr hi]
  by_cases hshort : m = 0 ∧ inLen < Config.block
  · simp only [if_pos hshort]
  · rw [decipher_congr hi fun hm => Nat.le_of_not_lt fun hlt => hshort ⟨hm, hlt⟩]

/-- Settles O35, by the command of the job: each body reads no byte at its length or above. -/
theorem jobDependsOnItsOperandsAlone : Obligations.JobDependsOnItsOperandsAlone := by
  intro s s' j hcap hkl hil hdraw hkey hin
  have hk : slice s'.keyByte 0 s.keyLen.toNat = slice s.keyByte 0 s.keyLen.toNat := slice_congr fun i _ => hkey i
  have hi : slice s'.inByte 0 s.inLen.toNat = slice s.inByte 0 s.inLen.toNat := slice_congr fun i _ => hin i
  obtain ⟨c, m⟩ := j
  unfold State.jobResult
  rw [hcap, hkl, hil, hdraw]
  cases c with
  | encrypt => exact encryptJob_congr hk hi
  | decrypt => exact decryptJob_congr hk hin
  | zeroize => rfl

/-! ### What every step leaves: the parameters, and the events still to come -/

/-- `t` is an instance with the parameters of `s`, facing the same events. -/
def SameInstance (s t : State) : Prop := t.config = s.config ∧ t.inputs = s.inputs

theorem command_sameInstance (s : State) (c : Cmd) (m : BitVec 2) (q : Bool) : SameInstance s (s.command c m q) := by
  cases hj : s.job with
  | none => rw [command_idle hj]; exact ⟨rfl, rfl⟩
  | some j => rw [command_busy (busy_of_some hj)]; exact ⟨rfl, rfl⟩

theorem configure_sameInstance (s : State) (m : BitVec 2) (q : Bool) : SameInstance s (s.configure m q) := by
  cases hj : s.job with
  | none => rw [configure_idle hj]; exact ⟨rfl, rfl⟩
  | some j => rw [configure_busy (busy_of_some hj)]; exact ⟨rfl, rfl⟩

theorem AccessEffect.sameInstance {off : Offset} {size : Nat} {write : Bool} {v : Word} {s t : State}
    (he : AccessEffect off size write v s t) : SameInstance s t := by
  cases he with
  | command c => exact command_sameInstance s c _ _
  | configure => exact configure_sameInstance s _ _
  | _ => exact ⟨rfl, rfl⟩

@[simp] theorem State.takeIv_inputs (s : State) (j : Job) : (s.takeIv j).inputs = s.inputs := by
  rcases takeIv_cases s j with h | h <;> simp [h]

@[simp] theorem State.jobClears_inputs (s : State) (j : Job) : (s.jobClears j).inputs = s.inputs := by
  rcases jobClears_cases s j with h | h <;> simp [h]

theorem complete_sameInstance (r : JobResult) (s : State) : SameInstance s (s.complete r) := by
  cases r <;> exact ⟨rfl, rfl⟩

theorem engineStep_sameInstance (s : State) : SameInstance s s.engineStep := by
  cases hj : s.job with
  | none => rw [engineStep_idle hj]; exact ⟨rfl, rfl⟩
  | some j =>
    rw [engineStep_pending hj]
    obtain ⟨hc, hi⟩ := complete_sameInstance (s.jobResult j) ((s.takeIv j).jobClears j)
    exact ⟨by simp [hc], by simp [hi]⟩

theorem engineTurn_sameInstance (s : State) : SameInstance s s.engineTurn := by
  unfold State.engineTurn
  split
  · exact ⟨rfl, rfl⟩
  · exact engineStep_sameInstance s

theorem setResetLine_sameInstance (s : State) (level : Bool) : SameInstance s (s.setResetLine level) := by
  unfold State.setResetLine
  split
  · split <;> exact ⟨rfl, rfl⟩
  · exact ⟨rfl, rfl⟩

theorem EventEffect.sameInstance {i : Input} {s t : State} (he : EventEffect i s t) : SameInstance s t := by
  cases he with
  | elsewhere => exact ⟨rfl, rfl⟩
  | inReset => exact ⟨rfl, rfl⟩
  | access _ _ _ _ _ _ _ _ _ he => exact he.sameInstance
  | engine => exact engineTurn_sameInstance s
  | reset level => exact setResetLine_sameInstance s level

/-- Settles O48: the step takes the first event off the schedule, and no event's effect touches the parameters or the
rest of it. -/
theorem noStepChangesTheConfiguration : Obligations.NoStepChangesTheConfiguration := by
  intro s t h
  obtain ⟨hnil, rfl⟩ | ⟨i, rest, hcons, he⟩ := step_effect h
  · obtain ⟨hc, hi⟩ := engineTurn_sameInstance s
    exact ⟨hc, by rw [hi, hnil]; rfl⟩
  · obtain ⟨hc, hi⟩ := he.sameInstance
    exact ⟨hc, by rw [hi, hcons]; rfl⟩

/-! ### Reset -/

/-- Asserting a released reset input resets the PCE (R260). -/
theorem step_assertReset {s : State} {rest : List Input} (h : s.inputs = .reset true :: rest)
    (hr : s.resetLine = false) : step s = .next (State.assertReset { s with inputs := rest }) := by
  rw [step_cons h]
  simp [takeInput, State.setResetLine, hr]

/-- Settles O53: the step is the assertion of reset, whose fields are the reset table's (R36). -/
theorem resetEntersTheResetState : Obligations.ResetEntersTheResetState := by
  intro s rest h hr
  refine ⟨_, step_assertReset h hr, ?_⟩
  simp [State.busy, State.irq, Memory.read?]

/-- Settles O47: at reset the default parameters are in range, nothing is pending and both buffers list no byte. -/
theorem resetStateHasInv : Obligations.ResetStateHasInv where
  config := by decide
  errCode := by decide
  outLen := by decide
  errNoOutput := fun _ => rfl
  outKnown := fun i hi => absurd hi (Nat.not_lt_zero i)
  inbuf := empty_bufferOk _
  outbuf := empty_bufferOk _
  busy := .of_idle rfl
  inReset := heldInReset_of_released rfl

end Sys2Proof.Machine

/-! ## The bus: what the next event reaches, what each location answers, stores and refuses -/

namespace Sys2Proof.Machine

/-! ### Which accesses the next event reaches -/

/-- The PCE decodes no address below its window or above it (R71). -/
theorem windowOffset_outside {p : Config.Params} {addr : Nat}
    (h : addr < p.pceBase ∨ p.pceBase + 0x40000 ≤ addr) : windowOffset p addr = none := by
  unfold windowOffset Config.windowBytes
  exact if_neg (by omega)

/-- Settles O22: outside the window a bus cycle has no offset to be decoded at. -/
theorem otherAddressesAreNotDecoded : Obligations.OtherAddressesAreNotDecoded := by
  intro s addr size write v rest hin hout
  rw [step_cons hin, takeInput, busCycle, windowOffset_outside hout]

/-- A turn of the engine while reset is released is the engine step (R152). -/
theorem step_engine {s : State} {rest : List Input} (h : s.inputs = .engine :: rest) (hr : s.resetLine = false) :
    step s = .next (State.engineStep { s with inputs := rest }) := by
  rw [step_cons h]
  simp [takeInput, State.engineTurn, hr]

/-- Releasing the reset input changes nothing but the line (R260). -/
theorem step_releaseReset {s : State} {rest : List Input} (h : s.inputs = .reset false :: rest) :
    step s = .next { s with inputs := rest, resetLine := false } := by
  rw [step_cons h]
  rfl

/-- Settles O7: one lemma for each kind of event. -/
theorem stepTakesTheNextEvent : Obligations.StepTakesTheNextEvent := fun _ _ =>
  ⟨fun _ _ _ _ hr h => step_access hr h, fun hr h => step_engine h hr, fun hr h => step_assertReset h hr,
    step_releaseReset⟩

/-! ### Reads -/

/-- A word index above a word-aligned base gives a word-aligned offset. -/
theorem wordOffset_aligned {base : Nat} (hbase : base % 4 = 0) (j : Nat) :
    (BitVec.ofNat 18 (base + 4 * j)).toNat % 4 = 0 := by
  rw [BitVec.toNat_ofNat]
  omega

/-- A read of accepted shape answers with the data of its location (R64). -/
theorem busAccess_read_data {off : Offset} {s : State} {d : Word} (h4 : off.toNat % 4 = 0)
    (hd : s.readData (locate s.config off) = some d) (v : Word) :
    busAccess off 4 false v s = .next (s.respond (.data d)) := by
  rw [busAccess_read h4, busRead_data hd]

/-- A read does not look at the write data. -/
theorem busAccess_read_wdata (off : Offset) (size : Nat) (v v' : Word) (s : State) :
    busAccess off size false v s = busAccess off size false v' s := rfl

/-- No location shows the last response. -/
theorem readData_respond (s : State) (r : Response) (l : Location) : (s.respond r).readData l = s.readData l := by
  cases l <;> rfl

/-- Settles O16: the repeated read sees a state that differs in the response alone, which no location shows. -/
theorem readsHaveNoSideEffect : Obligations.ReadsHaveNoSideEffect := by
  intro off size v v' s
  obtain ⟨r, hfirst, -⟩ := busAccess_read_congr (fun l => rfl) (rfl : s.config = s.config) off size v
  obtain ⟨r', hfirst', hagain⟩ := busAccess_read_congr (readData_respond s r) rfl off size v'
  have hsame : r' = r := by
    rw [busAccess_read_wdata off size v' v, hfirst] at hfirst'
    injection hfirst' with hstate
    exact (Option.some.inj (congrArg State.response hstate)).symm
  exact ⟨r, hfirst, hsame ▸ hagain⟩

/-- Byte `i` of a word made of four neighbouring bytes of a buffer is the byte `i` places on (R67). -/
theorem extractLsb_wordOfBytes (b : Nat → Byte) (n : Nat) {i : Nat} (hi : i < 4) :
    (wordOfBytes (b n) (b (n + 1)) (b (n + 2)) (b (n + 3))).extractLsb' (8 * i) 8 = b (n + i) := by
  obtain ⟨h0, h1, h2, h3⟩ := wordByte_wordOfBytes (b n) (b (n + 1)) (b (n + 2)) (b (n + 3))
  match i, hi with
  | 0, _ => exact h0
  | 1, _ => exact h1
  | 2, _ => exact h2
  | 3, _ => exact h3

/-- STATUS as a number, its BUSY bit by the job latch (R64). -/
theorem statusWord_eq_of_job (s : State) :
    s.statusWord = BitVec.ofNat 32
      (16 * s.err.toNat + 4 * s.accErr.toNat + 2 * s.done.toNat + if s.job = none then 0 else 1) := by
  rw [statusWord_eq]
  cases hj : s.job <;> simp [State.busy, hj]

/-- Settles O15: each clause is the data of the location the map puts at the offset. -/
theorem readsReturnTheRegisters : Obligations.ReadsReturnTheRegisters := by
  intro s v hp
  refine ⟨busAccess_read_data rfl (by simp [State.readData, idWord]) v,
    busAccess_read_data rfl (by simp [State.readData, ctrlWord_eq]) v,
    busAccess_read_data rfl (by simp [State.readData, statusWord_eq_of_job]) v,
    busAccess_read_data rfl (by simp [State.readData]) v,
    busAccess_read_data rfl (by simp [State.readData]) v,
    busAccess_read_data rfl (by simp [State.readData]) v,
    busAccess_read_data rfl (by simp [State.readData]) v, fun j hj => ?_, fun j hj => ?_, fun j hj => ?_⟩
  · exact busAccess_read_data (wordOffset_aligned rfl j) (by rw [locate_key s.config ⟨j, hj⟩]; rfl) v
  · refine ⟨s.inWord j, ?_, fun i => extractLsb_wordOfBytes s.inByte (4 * j)⟩
    exact busAccess_read_data (wordOffset_aligned rfl j) (by rw [locate_inWord hp hj]; rfl) v
  · refine ⟨s.outWord j, ?_, fun i => extractLsb_wordOfBytes s.gatedOutByte (4 * j)⟩
    exact busAccess_read_data (wordOffset_aligned rfl j) (by rw [locate_outWord hp hj]; rfl) v

/-! ### Writes -/

/-- A CTRL write runs its command word (R90). -/
theorem busAccess_write_ctrl (v : Word) (s : State) : busAccess 0x04 4 true v s = exec (decodeWord v) s := by
  rw [busAccess_write rfl]
  simp [busWrite]

/-- A STATUS write acknowledges, busy or not (R202). -/
theorem busAccess_write_status (v : Word) (s : State) :
    busAccess 0x08 4 true v s = .next ((s.acknowledge v).respond .okay) := by
  rw [busAccess_write rfl]
  simp [busWrite]

theorem busy_of_ne_none {s : State} (h : s.job ≠ none) : s.busy = true :=
  Option.isSome_iff_ne_none.2 h

/-- While busy every operand write is refused (R66). -/
theorem busAccess_write_busy {off : Offset} {s : State} (hb : s.job ≠ none) (h4 : off.toNat % 4 = 0)
    (hl : (locate s.config off).Operand) (v : Word) :
    busAccess off 4 true v s = .next (s.refuseOperand.respond .okay) := by
  have hrefused (t : State) : t.operandWrite s = s.refuseOperand.respond .okay := by
    rw [State.operandWrite, if_pos (busy_of_ne_none hb)]
  rw [busAccess_write h4, busWrite]
  obtain h | h | ⟨j, h⟩ | ⟨j, h⟩ := hl <;> simp only [h, hrefused]

/-- While idle an operand write stores its operand (R65). -/
theorem operandWrite_idle {s : State} (h : s.job = none) (t : State) : t.operandWrite s = t.respond .okay := by
  simp [State.operandWrite, busy_of_none h]

/-- CMD = 0 asks for no job. -/
theorem cmdOfField_eq_none_iff {c : BitVec 2} : cmdOfField c = none ↔ c = 0 := by
  revert c
  decide

/-- A command word while busy stores IRQ_EN alone and, asking for a job, sets ACC_ERR (R66, R200). -/
theorem exec_decodeWord_busy {s : State} (hb : s.job ≠ none) (v : Word) :
    exec (decodeWord v) s =
      .next { s with irqEn := v.getLsbD 4, accErr := s.accErr || cmdField v != 0, response := some .okay } := by
  rw [exec_decodeWord]
  cases hc : cmdOfField (cmdField v) with
  | none =>
    have h0 : (cmdField v != 0) = false := by simpa using cmdOfField_eq_none_iff.1 hc
    rw [h0, Bool.or_false]
    exact congrArg _ (configure_busy (busy_of_ne_none hb) _ _)
  | some c =>
    have h1 : (cmdField v != 0) = true := by
      simpa using fun h => by simp [cmdOfField_eq_none_iff.2 h] at hc
    rw [h1, Bool.or_true]
    exact congrArg _ (command_busy (busy_of_ne_none hb) _ _ _)

/-- Settles O12: the operand locations are refused alike; CTRL and STATUS have writes of their own. -/
theorem busyWritesAreRefused : Obligations.BusyWritesAreRefused := by
  intro s v hb hp
  refine ⟨⟨?_, ?_, fun j hj => ?_, fun j hj => ?_⟩, ?_, busAccess_write_status v s⟩
  · exact busAccess_write_busy hb rfl (.inl (locate_keyLen _)) v
  · exact busAccess_write_busy hb rfl (.inr (.inl (locate_inLen _))) v
  · have hl : locate s.config _ = .key ⟨j, hj⟩ := locate_key s.config ⟨j, hj⟩
    exact busAccess_write_busy hb (wordOffset_aligned rfl j) (.inr (.inr (.inl ⟨_, hl⟩))) v
  · have hl := locate_inWord hp hj
    exact busAccess_write_busy hb (wordOffset_aligned rfl j) (.inr (.inr (.inr ⟨_, hl⟩))) v
  · rw [busAccess_write_ctrl, exec_decodeWord_busy hb]

/-- A KEY_LEN write while idle stores the low byte (R65). -/
theorem busAccess_write_keyLen {s : State} (h : s.job = none) (v : Word) :
    busAccess 0x0C 4 true v s = .next (State.respond .okay { s with keyLen := v.extractLsb' 0 8 }) := by
  rw [busAccess_write rfl]
  simp [busWrite, operandWrite_idle h]

/-- An IN_LEN write while idle stores the word (R65). -/
theorem busAccess_write_inLen {s : State} (h : s.job = none) (v : Word) :
    busAccess 0x10 4 true v s = .next (State.respond .okay { s with inLen := v }) := by
  rw [busAccess_write rfl]
  simp [busWrite, operandWrite_idle h]

/-- A write of IN word `j` while idle stores its four bytes (R65). -/
theorem busAccess_write_inWord {s : State} (h : s.job = none) (hp : s.config.Legal) {j : Nat}
    (hj : 4 * j < s.config.inCap) (v : Word) :
    busAccess (BitVec.ofNat 18 (0x10000 + 4 * j)) 4 true v s =
      .next (State.respond .okay { s with inbuf := s.inbuf.store (4 * j) (wordBytes v) }) := by
  rw [busAccess_write (wordOffset_aligned rfl j)]
  simp [busWrite, locate_inWord hp hj, operandWrite_idle h]

theorem wordBytes_getElem? (v : Word) {i : Nat} (hi : i < 4) : (wordBytes v)[i]? = some (wordByte v i) := by
  match i, hi with
  | 0, _ | 1, _ | 2, _ | 3, _ => rfl

/-- The input bytes after a store of a word: its four bytes, least significant first, every other byte as it was
(R31, R67). -/
theorem inByte_store_word (s : State) (n : Nat) (v : Word) (i : Nat) :
    State.inByte { s with inbuf := s.inbuf.store n (wordBytes v) } i =
      if n ≤ i ∧ i < n + 4 then wordByte v (i - n) else s.inByte i := by
  have hread : Memory.read? (s.inbuf.store n (wordBytes v)) i =
      if n ≤ i ∧ i < n + 4 then (wordBytes v)[i - n]? else s.inbuf.read? i := store_read s.inbuf n (wordBytes v) i
  unfold State.inByte
  rw [hread]
  by_cases h : n ≤ i ∧ i < n + 4
  · rw [if_pos h, if_pos h, wordBytes_getElem? v (by omega)]
    rfl
  · rw [if_neg h, if_neg h]

/-- Settles O13: each writable location by its own write. -/
theorem idleWritesStoreTheOperand : Obligations.IdleWritesStoreTheOperand := fun s v hidle hp =>
  ⟨busAccess_write_ctrl v s, busAccess_write_keyLen hidle v, busAccess_write_inLen hidle v,
    fun j => busAccess_write_key hidle j v,
    fun j hj => ⟨_, busAccess_write_inWord hidle hp hj v, inByte_store_word s (4 * j) v⟩,
    busAccess_write_status v s⟩

/-! ### A read right after a write -/

/-- IN word `j` after a write of it is the word written (R67). -/
theorem inWord_store_word (s : State) (j : Nat) (v : Word) :
    State.inWord { s with inbuf := s.inbuf.store (4 * j) (wordBytes v) } j = v := by
  simp only [State.inWord, inByte_store_word]
  rw [if_pos (by omega), if_pos (by omega), if_pos (by omega), if_pos (by omega)]
  simpa using wordOfBytes_wordByte v

/-- The low byte of a word, extended, is the word masked (R64, R65). -/
theorem setWidth_lowByte (v : Word) : (v.extractLsb' 0 8).setWidth 32 = v &&& 0xFF := by
  apply BitVec.eq_of_toNat_eq
  have hmask : v.toNat &&& 0xFF = v.toNat % 2 ^ 8 := Nat.and_two_pow_sub_one_eq_mod v.toNat 8
  rw [BitVec.toNat_and, BitVec.toNat_setWidth, BitVec.extractLsb'_toNat]
  simp [hmask]
  omega

/-- CTRL shows MODE and IRQ_EN where a command word holds them (R23, R91). -/
theorem ctrlWord_of_fields {s : State} {v : Word} (hm : s.mode = modeField v) (hq : s.irqEn = irqField v) :
    s.ctrlWord = v &&& 0x1C := by
  unfold State.ctrlWord bitWord
  rw [hm, hq, modeField, irqField]
  ext i hi
  interval_cases i <;> simp

/-- A command word while idle leaves its MODE and IRQ_EN in CTRL, whether or not it starts a job (R150, R200). -/
theorem exec_decodeWord_ctrl {s : State} (h : s.job = none) (v : Word) :
    ∃ t, exec (decodeWord v) s = .next t ∧ t.ctrlWord = v &&& 0x1C := by
  rw [exec_decodeWord]
  refine ⟨_, rfl, ?_⟩
  cases cmdOfField (cmdField v) with
  | none => exact ctrlWord_of_fields (by simp [configure_idle h]) (by simp [configure_idle h])
  | some c => exact ctrlWord_of_fields (by simp [command_idle h]) (by simp [command_idle h])

/-- Settles O20: each write leaves its location as the read shows it. -/
theorem readAfterWriteReturnsIt : Obligations.ReadAfterWriteReturnsIt := by
  intro s v x hidle hp
  refine ⟨⟨_, busAccess_write_keyLen hidle v, ?_⟩, ⟨_, busAccess_write_inLen hidle v, ?_⟩, ?_,
    fun j hj => ⟨_, busAccess_write_inWord hidle hp hj v, ?_⟩⟩
  · exact busAccess_read_data rfl (by simp [State.readData, setWidth_lowByte]) x
  · exact busAccess_read_data rfl (by simp [State.readData]) x
  · obtain ⟨t, ht, hctrl⟩ := exec_decodeWord_ctrl hidle v
    exact ⟨t, by rw [busAccess_write_ctrl, ht], busAccess_read_data rfl (by simp [State.readData, hctrl]) x⟩
  · refine busAccess_read_data (wordOffset_aligned rfl j) ?_ x
    rw [State.respond_config, locate_inWord hp hj, readData_respond]
    exact congrArg some (inWord_store_word s j v)

/-! ### BusError -/

/-- The mapped locations that take no write (R63). -/
abbrev Location.ReadOnly (l : Location) : Prop :=
  l = .id ∨ l = .outLen ∨ l = .inCap ∨ ∃ j, l = .outWord j

/-- The word-aligned offsets of a location (R62). -/
def Location.Covers (p : Config.Params) (o : Nat) : Location → Prop
  | .id => o = 0x00
  | .ctrl => o = 0x04
  | .status => o = 0x08
  | .keyLen => o = 0x0C
  | .inLen => o = 0x10
  | .outLen => o = 0x14
  | .inCap => o = 0x18
  | .key _ => 0x20 ≤ o ∧ o < 0x40
  | .inWord _ => 0x10000 ≤ o ∧ o < 0x20000 ∧ o < 0x10000 + p.inCap
  | .outWord _ => 0x20000 ≤ o ∧ o < 0x30000 ∧ o < 0x20000 + p.outCap
  | .unmapped => o = 0x1C ∨ (0x40 ≤ o ∧ o < 0x10000) ∨ (0x10000 + p.inCap ≤ o ∧ o < 0x20000) ∨
      (0x20000 + p.outCap ≤ o ∧ o < 0x30000) ∨ 0x30000 ≤ o

/-- The map puts at a word-aligned offset a location that covers it. -/
theorem locate_covers (p : Config.Params) {off : Offset} (h4 : off.toNat % 4 = 0) :
    (locate p off).Covers p off.toNat := by
  unfold locate Config.inWindow Config.outWindow
  dsimp only
  repeat' (apply iteInduction (motive := Location.Covers p off.toNat) <;> intro)
  all_goals simp only [Location.Covers]; omega

/-- The word-aligned offsets the map leaves empty (R62). -/
theorem locate_unmapped_iff (p : Config.Params) {off : Offset} (h4 : off.toNat % 4 = 0) :
    locate p off = .unmapped ↔ Location.unmapped.Covers p off.toNat := by
  have hcovers := locate_covers p h4
  generalize locate p off = l at hcovers
  cases l <;> simp only [Location.Covers, reduceCtorEq, false_iff, true_iff] at hcovers ⊢ <;> omega

/-- The word-aligned offsets of the read-only locations (R62, R63). -/
theorem locate_readOnly_iff {p : Config.Params} (hp : p.Legal) {off : Offset} (h4 : off.toNat % 4 = 0) :
    (locate p off).ReadOnly ↔
      off.toNat = 0x00 ∨ off.toNat = 0x14 ∨ off.toNat = 0x18 ∨
      (0x20000 ≤ off.toNat ∧ off.toNat < 0x20000 + p.outCap) := by
  obtain ⟨-, hmin, hmax, -⟩ := hp
  have hout : p.outCap = p.inCap + 32 := rfl
  have hcovers := locate_covers p h4
  generalize locate p off = l at hcovers
  cases l <;> simp [Location.ReadOnly, Location.Covers] at hcovers ⊢ <;> omega

/-- An access of a refused shape, at an unmapped offset, or a write of a read-only location is answered with BusError
(R61, R63, R240). -/
theorem busAccess_busError {off : Offset} {size : Nat} {write : Bool} {s : State}
    (h : acceptedShape off size = false ∨ locate s.config off = .unmapped ∨
      (write = true ∧ (locate s.config off).ReadOnly)) (v : Word) :
    busAccess off size write v s = .next (s.raiseBusError off) := by
  unfold busAccess
  cases hs : acceptedShape off size with
  | false => rfl
  | true =>
    obtain hshape | hl | ⟨rfl, hl⟩ := h
    · exact absurd hs (by simp [hshape])
    · cases write <;> simp [busWrite, State.busRead, hl, State.readData]
    · obtain hl | hl | hl | ⟨j, hl⟩ := hl <;> simp [busWrite, hl]

/-- Every mapped location has read data (R64). -/
theorem readData_mapped (s : State) {l : Location} (h : l ≠ .unmapped) : ∃ d, s.readData l = some d := by
  cases l with
  | unmapped => exact absurd rfl h
  | _ => exact ⟨_, rfl⟩

/-- A command word is answered okay, whatever it does (R66, R150, R200). -/
theorem exec_decodeWord_okay (v : Word) (s : State) :
    ∃ t, exec (decodeWord v) s = .next t ∧ t.response = some .okay := by
  rw [exec_decodeWord]
  refine ⟨_, rfl, ?_⟩
  cases cmdOfField (cmdField v) <;> rfl

/-- A write of a mapped location that is not read-only is answered okay, busy or not (R65, R66, R202). -/
theorem busWrite_okay {off : Offset} {s : State} (hmapped : locate s.config off ≠ .unmapped)
    (hwritable : ¬(locate s.config off).ReadOnly) (v : Word) :
    ∃ t, busWrite off v s = .next t ∧ t.response = some .okay := by
  unfold busWrite
  cases hl : locate s.config off with
  | unmapped => exact absurd hl hmapped
  | id => exact absurd (.inl hl) hwritable
  | outLen => exact absurd (.inr (.inl hl)) hwritable
  | inCap => exact absurd (.inr (.inr (.inl hl))) hwritable
  | outWord j => exact absurd (.inr (.inr (.inr ⟨j, hl⟩))) hwritable
  | ctrl => exact exec_decodeWord_okay v s
  | _ => exact ⟨_, rfl, rfl⟩

/-- Every other access of accepted shape is answered with data or okay (R64 to R66, R241). -/
theorem busAccess_answered {off : Offset} {size : Nat} {write : Bool} {s : State}
    (hshape : acceptedShape off size = true) (hmapped : locate s.config off ≠ .unmapped)
    (hwritable : ¬(write = true ∧ (locate s.config off).ReadOnly)) (v : Word) :
    ∃ t r, busAccess off size write v s = .next t ∧ t.response = some r ∧ ∀ off', r ≠ .busError off' := by
  obtain ⟨rfl, h4⟩ := acceptedShape_iff.1 hshape
  cases write with
  | false =>
    obtain ⟨d, hd⟩ := readData_mapped s hmapped
    exact ⟨_, _, busAccess_read_data h4 hd v, rfl, fun _ => Response.noConfusion⟩
  | true =>
    obtain ⟨t, ht, hr⟩ := busWrite_okay hmapped (fun hl => hwritable ⟨rfl, hl⟩) v
    exact ⟨t, _, by rw [busAccess_write h4, ht], hr, fun _ => Response.noConfusion⟩

/-- Settles O17: the accesses named are those of a refused shape, those at an offset the map leaves empty, and the
writes of a read-only location. -/
theorem busErrorExactlyWhere : Obligations.BusErrorExactlyWhere := by
  intro off size write v s hp o refused
  cases hs : acceptedShape off size with
  | false =>
    have hrefused : refused := by
      by_contra hn
      simp only [refused, o, not_or, not_not] at hn
      exact absurd (acceptedShape_iff.2 ⟨hn.1, hn.2.1⟩) (by simp [hs])
    exact ⟨fun _ => busAccess_busError (.inl hs) v, absurd hrefused⟩
  | true =>
    obtain ⟨hsize, h4⟩ := acceptedShape_iff.1 hs
    have hrefused : refused ↔
        locate s.config off = .unmapped ∨ (write = true ∧ (locate s.config off).ReadOnly) := by
      rw [locate_unmapped_iff _ h4, locate_readOnly_iff hp h4]
      simp only [refused, o, Location.Covers, hsize, h4, ne_eq, not_true_eq_false, false_or, or_assoc]
    rw [hrefused, not_or]
    exact ⟨fun h => busAccess_busError (.inr h) v, fun ⟨hm, hw⟩ => busAccess_answered hs hm hw v⟩

end Sys2Proof.Machine

/-! ## Encoding: the fields of a command word, the decoder and the encoder, the opcode map, CTRL writes -/

namespace Sys2Proof

/-! ### The fields of a command word -/

/-- CMD of an instruction, bits 1:0 of its word (R92, R96). -/
def Instr.cmd : Instr → BitVec 2
  | .nop _ _ => 0
  | .encCbc _ | .encEcb _ | .encRsv _ _ => 1
  | .decCbc _ | .decEcb _ | .decRsv _ _ => 2
  | .zeroize _ _ => 3

/-- MODE of an instruction, bits 3:2 of its word (R93, R96). -/
def Instr.mode : Instr → BitVec 2
  | .encCbc _ | .decCbc _ => 0
  | .encEcb _ | .decEcb _ => 1
  | .nop m _ | .encRsv m _ | .decRsv m _ | .zeroize m _ => m

/-- The canonical word of an instruction holds its three fields and nothing else (R91). -/
theorem encodeWord_eq_commandWord (i : Instr) : encodeWord i = commandWord i.cmd i.mode i.irq := by
  cases i <;> rfl

@[simp] theorem cmdField_commandWord (c m : BitVec 2) (q : Bool) : cmdField (commandWord c m q) = c := by
  cases q <;> revert c m <;> decide

@[simp] theorem modeField_commandWord (c m : BitVec 2) (q : Bool) : modeField (commandWord c m q) = m := by
  cases q <;> revert c m <;> decide

@[simp] theorem irqField_commandWord (c m : BitVec 2) (q : Bool) : irqField (commandWord c m q) = q :=
  (commandWord_canonical c m q).2

/-- The fields are bits 4:0 of the word (R91). -/
theorem commandWord_fields (w : Word) : commandWord (cmdField w) (modeField w) (irqField w) = w &&& 0x1F := by
  unfold commandWord cmdField modeField irqField
  ext i hi
  cases hq : w[4] <;> interval_cases i <;> simp [hq]

/-! ### The decoder and the encoder -/

/-- A MODE is reserved when it is neither CBC nor ECB (R23). -/
theorem reservedMode_iff {m : BitVec 2} : reservedMode m = true ↔ m ≠ 0#2 ∧ m ≠ 1#2 := by
  revert m
  decide

/-- The decoder gives a well-formed instruction with the fields of the word (R92 to R94, R96). -/
theorem decodeWord_fields (w : Word) :
    (decodeWord w).wellFormed = true ∧ (decodeWord w).cmd = cmdField w ∧ (decodeWord w).mode = modeField w ∧
      (decodeWord w).irq = irqField w := by
  have cmd_eq_three : ∀ c : BitVec 2, c ≠ 0 → c ≠ 1 → c ≠ 2 → 3 = c := by decide
  unfold decodeWord
  split_ifs with h0 h1 hm0 hm1 h2 hm0 hm1
  · exact ⟨rfl, h0.symm, rfl, rfl⟩
  · exact ⟨rfl, h1.symm, hm0.symm, rfl⟩
  · exact ⟨rfl, h1.symm, hm1.symm, rfl⟩
  · exact ⟨reservedMode_iff.2 ⟨hm0, hm1⟩, h1.symm, rfl, rfl⟩
  · exact ⟨rfl, h2.symm, hm0.symm, rfl⟩
  · exact ⟨rfl, h2.symm, hm1.symm, rfl⟩
  · exact ⟨reservedMode_iff.2 ⟨hm0, hm1⟩, h2.symm, rfl, rfl⟩
  · exact ⟨rfl, cmd_eq_three _ h0 h1 h2, rfl, rfl⟩

/-- Decoding the canonical word of a well-formed instruction gives it back: the fields tell the rows apart, the reserved
ones because their MODE is reserved (R96). -/
theorem decodeWord_encodeWord {i : Instr} (h : i.wellFormed = true) : decodeWord (encodeWord i) = i := by
  cases i with
  | encRsv m q | decRsv m q =>
    obtain ⟨h0, h1⟩ := reservedMode_iff.1 h
    simp [encodeWord, decodeWord, h0, h1]
  | _ => simp [encodeWord, decodeWord]

/-- Encoding a decoded word keeps its fields and clears the ignored bits 31:5 (R94). -/
theorem encodeWord_decodeWord (w : Word) : encodeWord (decodeWord w) = w &&& 0x1F := by
  obtain ⟨-, hcmd, hmode, hirq⟩ := decodeWord_fields w
  rw [encodeWord_eq_commandWord, hcmd, hmode, hirq, commandWord_fields]

/-- The ignored bits 31:5 select nothing (R94). -/
theorem decodeWord_and_fields (w : Word) : decodeWord (w &&& 0x1F) = decodeWord w := by
  rw [← encodeWord_decodeWord, decodeWord_encodeWord (decodeWord_fields w).1]

/-- The byte stream begins with the bytes of a word: the decoder reads that word and leaves the rest. -/
theorem decode_wordBytes_append (w : Word) (rest : Bytes) :
    decode (wordBytes w ++ rest) = .ok (decodeWord w, rest) := by
  show Except.ok (decodeWord (wordOfBytes _ _ _ _), rest) = _
  rw [Machine.wordOfBytes_wordByte]

theorem decode_wordBytes (w : Word) : decode (wordBytes w) = .ok (decodeWord w, []) :=
  decode_wordBytes_append w []

/-- The table's view of a word is the decoder's. -/
theorem decodeTableWord_eq (n w : Nat) :
    decodeTableWord n w = some (decodeWord (BitVec.ofNat 32 (w % 2 ^ n))) := by
  rw [decodeTableWord, decode_wordBytes]

/-- Settles O2: the bytes of the canonical word make the word, which decodes to the instruction. -/
theorem decodeOfEncodeIsTheInstruction : Obligations.DecodeOfEncodeIsTheInstruction := by
  intro i rest h
  rw [encode, decode_wordBytes_append, decodeWord_encodeWord h]

/-- Settles O4: the decoder keeps the fields of the word, and the fields are all the encoder writes. -/
theorem encodeOfDecodeClearsReservedBits : Obligations.EncodeOfDecodeClearsReservedBits := fun w =>
  ⟨(decodeWord_fields w).1, encodeWord_decodeWord w⟩

/-- Settles O1: each word is a literal. -/
theorem commandWordsDecode : Obligations.CommandWordsDecode := by
  unfold Obligations.CommandWordsDecode
  decide

/-! ### The opcode map -/

/-- No row looks at IRQ_EN or at bits 31:5 (R96). -/
theorem covers_congr {r : OpcodeRow} (hr : r ∈ opcodeRows) {w w' : Word} (h : w &&& 0xF = w' &&& 0xF) :
    r.covers w = r.covers w' := by
  have hmask : ∀ r ∈ opcodeRows, 0xF &&& r.mask = r.mask := by decide
  unfold OpcodeRow.covers
  rw [← hmask r hr, ← BitVec.and_assoc, ← BitVec.and_assoc, h]

/-- Each instruction names a row. -/
theorem exists_row_of_mnemonic (i : Instr) : ∃ r ∈ opcodeRows, r.mnemonic = i.mnemonic := by
  cases i <;> simp [opcodeRows, Instr.mnemonic]

/-- A row covers exactly the words of its instruction (R96). -/
theorem covers_iff_mnemonic {r : OpcodeRow} (hr : r ∈ opcodeRows) (w : Word) :
    r.covers w = true ↔ r.mnemonic = (decodeWord w).mnemonic := by
  have canonical : ∀ (q : Bool) (c m : BitVec 2), ∀ r ∈ opcodeRows, r.covers (commandWord c m q) = true ↔
      r.mnemonic = (decodeWord (commandWord c m q)).mnemonic := by decide
  have hlow : w &&& 0xF = w &&& 0x1F &&& 0xF := by rw [BitVec.and_assoc]; rfl
  rw [covers_congr hr hlow, ← decodeWord_and_fields, ← commandWord_fields]
  exact canonical _ _ _ r hr

/-- No two rows have the same name. -/
theorem opcodeRows_mnemonic_injective :
    ∀ r ∈ opcodeRows, ∀ r' ∈ opcodeRows, r'.mnemonic = r.mnemonic → r' = r := by decide

/-- Each word is covered by the row its instruction names, and by no other (R96). -/
theorem row_of_word (w : Word) : ∃ r ∈ opcodeRows, r.covers w = true ∧ r.mnemonic = (decodeWord w).mnemonic ∧
    ∀ r' ∈ opcodeRows, r'.covers w = true → r' = r := by
  obtain ⟨r, hr, hname⟩ := exists_row_of_mnemonic (decodeWord w)
  refine ⟨r, hr, (covers_iff_mnemonic hr w).2 hname, hname, fun r' hr' hcovers => ?_⟩
  exact opcodeRows_mnemonic_injective r hr r' hr' (((covers_iff_mnemonic hr' w).1 hcovers).trans hname.symm)

/-- Words that agree in CMD and MODE have the same mnemonic. -/
theorem mnemonic_decodeWord_congr {w w' : Word} (h : w &&& 0xF = w' &&& 0xF) :
    (decodeWord w).mnemonic = (decodeWord w').mnemonic := by
  obtain ⟨r, hr, hcovers, hname, -⟩ := row_of_word w
  rw [← hname]
  exact (covers_iff_mnemonic hr w').1 (covers_congr hr h ▸ hcovers)

/-- Setting bit 4 of a word sets IRQ_EN and leaves CMD and MODE (R94). -/
theorem fields_or_irq (w : Word) :
    irqField (w ||| 0x10) = true ∧ cmdField (w ||| 0x10) = cmdField w ∧ modeField (w ||| 0x10) = modeField w := by
  refine ⟨by simp [irqField], ?_, ?_⟩
  · simp [cmdField, BitVec.extractLsb'_or]
  · simp [modeField, BitVec.extractLsb'_or]

/-- Settles O3: the rows are told apart by their names, and the row of a word is the one its instruction names. -/
theorem opcodeMapPartitionsTheWords : Obligations.OpcodeMapPartitionsTheWords := by
  refine ⟨row_of_word, fun w => ⟨mnemonic_decodeWord_congr ?_, fields_or_irq w⟩, ?_⟩
  · rw [BitVec.and_or_distrib_right]
    simp
  · decide

end Sys2Proof

namespace Sys2Proof.Machine

/-! ### CTRL writes -/

theorem command_irqEn (s : State) (c : Cmd) (m : BitVec 2) (q : Bool) : (s.command c m q).irqEn = q := by
  cases h : s.busy <;> simp [State.command, h]

theorem configure_irqEn (s : State) (m : BitVec 2) (q : Bool) : (s.configure m q).irqEn = q := by
  cases h : s.busy <;> simp [State.configure, h]

/-- A command word stores IRQ_EN, busy or not, whether or not it asks for a job (R94). -/
theorem exec_decodeWord_irqEn (w : Word) (s : State) :
    ∃ t, exec (decodeWord w) s = .next t ∧ t.irqEn = irqField w := by
  rw [exec_decodeWord]
  refine ⟨_, rfl, ?_⟩
  cases cmdOfField (cmdField w) with
  | none => exact configure_irqEn ..
  | some c => exact command_irqEn ..

/-- CTRL reads as a command word with CMD = 0 (R64, R91). -/
theorem ctrlWord_eq_commandWord (s : State) : s.ctrlWord = commandWord 0 s.mode s.irqEn := by
  unfold State.ctrlWord
  cases s.irqEn <;> simp [commandWord, bitWord, BitVec.or_comm]

/-- Settles O5: the ignored bits do not reach the decoder, and no command word leaves them in CTRL. -/
theorem reservedBitsSelectNothing : Obligations.ReservedBitsSelectNothing := by
  intro w v s
  rw [busAccess_write_ctrl, busAccess_write_ctrl, decodeWord_and_fields]
  obtain ⟨t, ht, hirq⟩ := exec_decodeWord_irqEn w s
  refine ⟨rfl, t, ht, hirq, t.ctrlWord, busAccess_read_data rfl (by simp [State.readData]) v, ?_⟩
  rw [ctrlWord_eq_commandWord]
  exact (commandWord_canonical ..).1

/-- A step on a CTRL write, with reset released, runs its command word (R73, R90). -/
theorem step_writeCtrl {s : State} {w : Word} {rest : List Input} (hr : s.resetLine = false)
    (h : s.inputs = .bus (s.config.pceBase + 4) 4 true w :: rest) :
    step s = exec (decodeWord w) { s with inputs := rest } := by
  rw [step_access (off := 0x04) hr h, busAccess_write_ctrl]

/-- Settles O6: both forms are a step on a CTRL write, of the word whose instruction the hypothesis names. -/
theorem stepRunsTheDecodedInstruction : Obligations.StepRunsTheDecodedInstruction := by
  refine ⟨fun s w rest i hr hin hdecode => ?_, fun s n w i hdecode => ?_⟩
  · rw [decode_wordBytes] at hdecode
    cases hdecode
    exact step_writeCtrl hr hin
  · rw [decodeTableWord_eq] at hdecode
    cases hdecode
    exact step_writeCtrl (s := s.withFetchWord n w) rfl rfl

end Sys2Proof.Machine

/-! ## The primitives: AES and its inverse, padding, the modes -/

namespace Sys2Proof.Machine

/-! ### AES -/

/-- One more key at the end of the rounds: the key before it loses its place as the last, so MixColumns follows it. -/
theorem encRounds_concat_concat (ks : List Grid) (k k' s : Grid) :
    encRounds (ks ++ [k] ++ [k']) s =
      addRoundKey k' (shiftRows (subBytes
        (addRoundKey k ((addRoundKey k (encRounds (ks ++ [k]) s)).map mixColumn)))) := by
  induction ks generalizing s with
  | nil => simp only [List.nil_append, List.singleton_append, encRounds, addRoundKey_twice]
  | cons x xs ih => cases xs <;> exact ih _

/-- One more key at the end of the inverse rounds, which InvMixColumns separates from the key before it. -/
theorem decRounds_concat_concat (ks : List Grid) (k k' s : Grid) :
    decRounds (ks ++ [k] ++ [k']) s =
      addRoundKey k' (invSubBytes (invShiftRows ((decRounds (ks ++ [k]) s).map invMixColumn))) := by
  induction ks generalizing s with
  | nil => rfl
  | cons x xs ih => cases xs <;> exact ih _

theorem encRounds_cons_concat (k k' : Grid) (ks : List Grid) (s : Grid) :
    encRounds (k :: ks ++ [k']) s =
      encRounds (ks ++ [k']) (addRoundKey k ((shiftRows (subBytes s)).map mixColumn)) := by
  cases ks <;> rfl

theorem decRounds_cons_concat (k k' : Grid) (ks : List Grid) (s : Grid) :
    decRounds (k :: ks ++ [k']) s =
      decRounds (ks ++ [k']) ((addRoundKey k (invSubBytes (invShiftRows s))).map invMixColumn) := by
  cases ks <;> rfl

/-- The inverse rounds on the keys in reverse undo the rounds, up to the key `k₀` added before them. -/
theorem decRounds_encRounds (k₀ kₙ : Grid) (ks : List Grid) (s : Grid) :
    decRounds (ks.reverse ++ [k₀]) (addRoundKey kₙ (encRounds (ks ++ [kₙ]) s)) = addRoundKey k₀ s := by
  induction ks generalizing k₀ s with
  | nil =>
    simp only [List.reverse_nil, List.nil_append, encRounds, decRounds, addRoundKey_twice,
      invShiftRows_shiftRows, invSubBytes_subBytes]
  | cons k ks ih =>
    rw [List.reverse_cons, decRounds_concat_concat, encRounds_cons_concat, ih, addRoundKey_twice, invMix_mix,
      invShiftRows_shiftRows, invSubBytes_subBytes]

/-- The rounds on the keys in reverse undo the inverse rounds, up to the key `kₙ` added before those. -/
theorem encRounds_decRounds (k₀ kₙ : Grid) (ks : List Grid) (s : Grid) :
    encRounds (ks.reverse ++ [kₙ]) (addRoundKey k₀ (decRounds (ks ++ [k₀]) s)) = addRoundKey kₙ s := by
  induction ks generalizing kₙ s with
  | nil =>
    simp only [List.reverse_nil, List.nil_append, encRounds, decRounds, addRoundKey_twice,
      subBytes_invSubBytes, shiftRows_invShiftRows]
  | cons k ks ih =>
    rw [List.reverse_cons, encRounds_concat_concat, decRounds_cons_concat, ih, addRoundKey_twice, mix_invMix,
      addRoundKey_twice, subBytes_invSubBytes, shiftRows_invShiftRows]

/-- The inverse cipher undoes the cipher, whatever the round keys. -/
theorem invCipherWith_cipherWith (rks : List Grid) {b : Bytes} (h : b.length = 16) :
    invCipherWith rks.reverse (cipherWith rks b) = b := by
  cases rks with
  | nil => rfl
  | cons k₀ ks =>
    obtain rfl | ⟨ks, kₙ, rfl⟩ := ks.eq_nil_or_concat'
    · simp [cipherWith, invCipherWith, encRounds, decRounds, loadBlock_storeBlock, addRoundKey_twice,
        storeBlock_loadBlock h]
    · simp [cipherWith, invCipherWith, loadBlock_storeBlock, decRounds_encRounds, addRoundKey_twice,
        storeBlock_loadBlock h]

/-- The cipher undoes the inverse cipher, whatever the round keys. -/
theorem cipherWith_invCipherWith (rks : List Grid) {b : Bytes} (h : b.length = 16) :
    cipherWith rks (invCipherWith rks.reverse b) = b := by
  cases rks with
  | nil => rfl
  | cons k₀ ks =>
    obtain rfl | ⟨ks, kₙ, rfl⟩ := ks.eq_nil_or_concat'
    · simp [cipherWith, invCipherWith, encRounds, decRounds, loadBlock_storeBlock, addRoundKey_twice,
        storeBlock_loadBlock h]
    · have hrounds := encRounds_decRounds k₀ kₙ ks.reverse
      rw [List.reverse_reverse] at hrounds
      simp [cipherWith, invCipherWith, loadBlock_storeBlock, hrounds, addRoundKey_twice, storeBlock_loadBlock h]

theorem aesDec_aesEnc (k : Bytes) {b : Bytes} (h : b.length = 16) : aesDec k (aesEnc k b) = b :=
  invCipherWith_cipherWith _ h

theorem aesEnc_aesDec (k : Bytes) {b : Bytes} (h : b.length = 16) : aesEnc k (aesDec k b) = b :=
  cipherWith_invCipherWith _ h

/-- Settles O41: the inverse cipher is a two-sided inverse on blocks, and both map blocks to blocks. -/
theorem aesInverseLaw : Obligations.AesInverseLaw := fun k _ =>
  ⟨fun _ hb => ⟨aesDec_aesEnc k hb, aesEnc_aesDec k hb⟩,
    Set.InvOn.bijOn ⟨fun _ hb => aesDec_aesEnc k hb, fun _ hb => aesEnc_aesDec k hb⟩
      (fun _ hb => aesEnc_length k hb) (fun _ hb => aesDec_length k hb)⟩

/-! ### Padding -/

/-- Once the last byte `n` is in range, `unpad` turns on the last `n` bytes being `n` (R131). -/
theorem unpad_of_last {pp : Bytes} {n : Nat} (hn : (pp.getLastD 0).toNat = n) (h1 : 1 ≤ n) (h16 : n ≤ 16) :
    unpad pp = if (pp.drop (pp.length - n)).all (fun b => b.toNat == n) then .ok (pp.take (pp.length - n))
      else .err .padding := by
  subst hn
  exact if_neg (by unfold Config.block; omega)

/-- A run of `n` copies of the byte `n`, from 1 to 16, is stripped (R131). -/
theorem unpad_append_replicate (p : Bytes) {n : Nat} (h1 : 1 ≤ n) (h16 : n ≤ 16) :
    unpad (p ++ List.replicate n (BitVec.ofNat 8 n)) = .ok p := by
  have hbyte : (BitVec.ofNat 8 n).toNat = n := by rw [BitVec.toNat_ofNat]; omega
  have hlast : ((p ++ List.replicate n (BitVec.ofNat 8 n)).getLastD 0).toNat = n := by
    obtain ⟨m, rfl⟩ : ∃ m, n = m + 1 := ⟨n - 1, by omega⟩
    rw [List.replicate_succ', ← List.append_assoc, List.getLastD_concat, hbyte]
  rw [unpad_of_last hlast h1 h16]
  simp [hbyte]

/-- Success of `unpad` on a text of at least 16 bytes: the text ends with `n` copies of the byte `n` (R131). -/
theorem unpad_eq_ok_iff {pp p : Bytes} (h : 16 ≤ pp.length) :
    unpad pp = .ok p ↔ ∃ n, 1 ≤ n ∧ n ≤ 16 ∧ pp = p ++ List.replicate n (BitVec.ofNat 8 n) := by
  constructor
  · intro hok
    obtain ⟨n, h1, h16, rfl, hn⟩ := unpad_ok hok
    have hall : ∀ b ∈ pp.drop (pp.length - n), b.toNat = n := by
      simpa [unpad_of_last hn h1 h16] using hok
    have htail : pp.drop (pp.length - n) = List.replicate n (BitVec.ofNat 8 n) :=
      List.eq_replicate_iff.2 ⟨by rw [List.length_drop]; omega,
        fun b hb => by rw [← hall b hb, BitVec.ofNat_toNat, BitVec.setWidth_eq]⟩
    exact ⟨n, h1, h16, by rw [← htail, List.take_append_drop]⟩
  · rintro ⟨n, h1, h16, rfl⟩
    exact unpad_append_replicate p h1 h16

theorem unpad_pad (p : Bytes) : unpad (pad p) = .ok p :=
  unpad_append_replicate p (padLen_range _).1 (padLen_range _).2

theorem pad_injective : Function.Injective pad := fun p q h => by
  have hok := unpad_pad p
  rw [h, unpad_pad q] at hok
  exact (JobResult.ok.inj hok).symm

/-- Settles O42: a positive multiple of 16 is at least 16, so clause (d) is `unpad_eq_ok_iff`. -/
theorem paddingLaws : Obligations.PaddingLaws := by
  refine ⟨pad_length, unpad_pad, pad_injective, fun pp h0 h16 => ?_⟩
  simp only [unpad_eq_ok_iff (pp := pp) (by omega)]
  exact exists_comm.trans (by simp only [exists_and_left])

/-! ### The modes -/

@[simp] theorem blocks_nil : blocks [] = [] := List.length_eq_zero_iff.1 (blocks_length [])

/-- A whole block in front of a text is its first block (R12). -/
theorem blocks_append {x : Bytes} (hx : x.length = 16) (b : Bytes) : blocks (x ++ b) = x :: blocks b := by
  have hlen : (x ++ b).length / Config.block = b.length / Config.block + 1 := by
    rw [List.length_append, hx]; unfold Config.block; omega
  have hblock : x.length = Config.block := hx
  rw [blocks, hlen, blocksOf, List.take_left' hblock, List.drop_left' hblock, blocks]

theorem xorBytes_xorBytes {a b : Bytes} (h : a.length = b.length) : xorBytes (xorBytes a b) b = a :=
  List.ext_getElem (by simp [xorBytes, h]) fun i _ _ => by simp [xorBytes]

/-- ECB over the blocks of a text, deciphered block by block. -/
theorem flatMap_aesDec_flatMap_aesEnc (k : Bytes) {l : List Bytes} (h : ∀ x ∈ l, x.length = 16) :
    (blocks (l.flatMap (aesEnc k))).flatMap (aesDec k) = l.flatten := by
  induction l with
  | nil => simp
  | cons x l ih =>
    obtain ⟨hx, hl⟩ := List.forall_mem_cons.1 h
    rw [List.flatMap_cons, blocks_append (aesEnc_length k hx), List.flatMap_cons, aesDec_aesEnc k hx, ih hl,
      List.flatten_cons]

/-- CBC over the blocks of a text: both chains pass on the cipher block, so they stay in step. -/
theorem cbcDecFrom_cbcEncFrom (k : Bytes) {prev : Bytes} {l : List Bytes} (hp : prev.length = 16)
    (h : ∀ x ∈ l, x.length = 16) : cbcDecFrom k prev (blocks (cbcEncFrom k prev l)) = l.flatten := by
  induction l generalizing prev with
  | nil => simp [cbcEncFrom, cbcDecFrom]
  | cons x l ih =>
    obtain ⟨hx, hl⟩ := List.forall_mem_cons.1 h
    have hxor : (xorBytes x prev).length = 16 := xorBytes_length hx hp
    have hc : (aesEnc k (xorBytes x prev)).length = 16 := aesEnc_length k hxor
    rw [cbcEncFrom, blocks_append hc, cbcDecFrom, aesDec_aesEnc k hxor, xorBytes_xorBytes (hx.trans hp.symm), ih hc hl,
      List.flatten_cons]

theorem ecbDec_ecbEnc (k : Bytes) {pp : Bytes} (h : pp.length % 16 = 0) : ecbDec k (ecbEnc k pp) = pp :=
  (flatMap_aesDec_flatMap_aesEnc k fun _ hx => blocks_mem_length hx).trans (blocks_flatten h)

theorem cbcDec_cbcEnc (k : Bytes) {iv pp : Bytes} (hiv : iv.length = 16) (h : pp.length % 16 = 0) :
    cbcDec k iv (cbcEnc k iv pp) = pp :=
  (cbcDecFrom_cbcEncFrom k hiv fun _ hx => blocks_mem_length hx).trans (blocks_flatten h)

/-- Settles O43: the round trips of the two modes, and their lengths on a text of whole blocks. -/
theorem modesInvert : Obligations.ModesInvert := fun k iv pp _ hiv hpp =>
  ⟨ecbDec_ecbEnc k hpp, cbcDec_cbcEnc k hiv hpp, by rw [ecbEnc_length]; omega, by rw [cbcEnc_length k pp hiv]; omega⟩

end Sys2Proof.Machine

/-! ## Dispatch: what a START writes, what the engine's step writes, and what ends a pending job -/

namespace Sys2Proof.Machine

/-! ### START -/

/-- A CMD field other than 0 asks for a job (R92, R150). -/
theorem cmdOfField_of_ne_zero {c : BitVec 2} (h : c ≠ 0) :
    cmdOfField c = some (if c = 1 then .encrypt else if c = 2 then .decrypt else .zeroize) := by
  rw [cmdOfField, if_neg h]
  split_ifs <;> rfl

/-- Settles O8: the word is run as a command, which starts its job while idle and is refused while busy. -/
theorem commandWordsStart : Obligations.CommandWordsStart := by
  intro s w hcmd
  rw [exec_decodeWord, cmdOfField_of_ne_zero hcmd]
  exact ⟨fun hidle => congrArg _ (command_idle hidle _ _ _),
    fun hbusy => congrArg _ (command_busy (busy_of_ne_none hbusy) _ _ _)⟩

/-- Settles O9: each of the three is an encrypt command with its mode. -/
theorem encryptCommandsStart : Obligations.EncryptCommandsStart := fun _ q m hidle =>
  ⟨congrArg _ (command_idle hidle .encrypt 0 q), congrArg _ (command_idle hidle .encrypt 1 q),
    congrArg _ (command_idle hidle .encrypt m q)⟩

/-- Settles O10: each of the three is a decrypt command with its mode. -/
theorem decryptCommandsStart : Obligations.DecryptCommandsStart := fun _ q m hidle =>
  ⟨congrArg _ (command_idle hidle .decrypt 0 q), congrArg _ (command_idle hidle .decrypt 1 q),
    congrArg _ (command_idle hidle .decrypt m q)⟩

/-! ### The engine's turn -/

/-- While reset is released a turn of the engine is its step (R152, R260). -/
theorem engineTurn_released {s : State} (hr : s.resetLine = false) : s.engineTurn = s.engineStep := by
  simp [State.engineTurn, hr]

/-- While reset is asserted the engine has no turn (R260). -/
theorem engineTurn_inReset {s : State} (hr : s.resetLine = true) : s.engineTurn = s := by
  simp [State.engineTurn, hr]

/-- Without a job the engine has no step, whatever the reset line (R152). -/
theorem engineTurn_idle {s : State} (h : s.job = none) : s.engineTurn = s := by
  cases hr : s.resetLine with
  | true => exact engineTurn_inReset hr
  | false => rw [engineTurn_released hr, engineStep_idle h]

/-- Settles O33: the turn finds no job latched. -/
theorem engineRestsWithoutAJob : Obligations.EngineRestsWithoutAJob := by
  intro s rest hidle hin
  rw [step_cons hin, takeInput, engineTurn_idle (s := { s with inputs := rest }) hidle]

/-! ### Completion -/

/-- A request to the entropy source moves its answers and the free-value index alone (R246). -/
theorem takeIv_ports (s : State) (j : Job) : ∃ e f, s.takeIv j = { s with entropy := e, freeCount := f } := by
  obtain h | h := takeIv_cases s j
  · exact ⟨_, _, h⟩
  · exact ⟨_, _, h⟩

/-- The engine's step on a job sets DONE and clears the latch, whatever the job and its outcome (R154). -/
theorem engineStep_done {s : State} {j : Job} (h : s.job = some j) :
    s.engineStep.job = none ∧ s.engineStep.done = true := by
  rw [engineStep_pending h]
  exact (complete_done _ _).symm

/-- Settles O24: the job completes, with its outcome, from a state that differs from `s` in the entropy source alone. -/
theorem completionWritesTheOutcome : Obligations.CompletionWritesTheOutcome := by
  refine ⟨rfl, fun s j hj hc hp => ?_⟩
  obtain ⟨e, f, hiv⟩ := takeIv_ports s j
  rw [engineStep_cipher hj hc, hiv]
  refine ⟨fun out hout => ?_, fun k hk => ?_, ?_⟩
  · have hlen := outLen_toNat hp hout
    rw [hout]
    refine ⟨hlen, rfl, finishOk_result hlen, fun i hi => ?_, fun i hi => ?_⟩
    · rw [State.complete, finishOk_outByte, dif_pos hi, List.getElem?_eq_getElem hi]
    · rw [State.complete, finishOk_outByte, dif_neg (Nat.not_lt.2 hi)]
      rfl
  · rw [hk]
    exact ⟨rfl, rfl, rfl⟩
  · cases s.jobResult j <;> exact ⟨rfl, rfl, rfl, rfl, rfl, rfl, rfl, rfl, rfl, rfl, rfl, rfl, rfl, rfl⟩

/-! ### What can happen to a pending job -/

/-- From `s` to `t` the job stays latched, on its operands, with the cleared result as it was (R151), and a released
reset line stays released. -/
structure Held (s t : State) : Prop where
  job : t.job = s.job
  key : t.key = s.key
  keyLen : t.keyLen = s.keyLen
  inbuf : t.inbuf = s.inbuf
  inLen : t.inLen = s.inLen
  mode : t.mode = s.mode
  outbuf : t.outbuf = s.outbuf
  outLen : t.outLen = s.outLen
  err : t.err = s.err
  epoch : t.epoch = s.epoch
  released : s.resetLine = false → t.resetLine = false

/-- A job is held while only IRQ_EN, DONE, ACC_ERR and the ports change. -/
theorem Held.flags (s : State) (q d a : Bool) (i : List Input) (r : Option Response) (f : Nat) :
    Held s { s with irqEn := q, done := d, accErr := a, inputs := i, response := r, freeCount := f } :=
  ⟨rfl, rfl, rfl, rfl, rfl, rfl, rfl, rfl, rfl, rfl, id⟩

theorem Held.refl (s : State) : Held s s := .flags s _ _ _ _ _ _

theorem Held.trans {s t u : State} (h : Held s t) (h' : Held t u) : Held s u :=
  ⟨h'.job.trans h.job, h'.key.trans h.key, h'.keyLen.trans h.keyLen, h'.inbuf.trans h.inbuf, h'.inLen.trans h.inLen,
    h'.mode.trans h.mode, h'.outbuf.trans h.outbuf, h'.outLen.trans h.outLen, h'.err.trans h.err,
    h'.epoch.trans h.epoch, fun hr => h'.released (h.released hr)⟩

/-- No access ends a pending job or reaches its operands: what would is refused (R66, R151). -/
theorem AccessEffect.held {off : Offset} {size : Nat} {write : Bool} {v : Word} {s t : State}
    (he : AccessEffect off size write v s t) (hb : s.busy = true) : Held s t := by
  cases he with
  | answered r => exact .flags s _ _ _ _ _ _
  | command c => exact command_busy hb c _ _ ▸ .flags s _ _ _ _ _ _
  | configure => exact configure_busy hb _ _ ▸ .flags s _ _ _ _ _ _
  | acknowledged => exact .flags s _ _ _ _ _ _
  | refused => exact .flags s _ _ _ _ _ _
  | keyLen _ _ hidle | inLen _ _ hidle | key _ _ _ hidle | inWord _ _ _ _ hidle => simp [hidle] at hb

/-- A turn of the engine holds the job, while reset is asserted, or is the engine's step (R152, R260). -/
theorem engineTurn_pending (s : State) : Held s s.engineTurn ∨ s.engineTurn = s.engineStep := by
  cases hr : s.resetLine with
  | true => exact .inl ((engineTurn_inReset hr).symm ▸ .refl s)
  | false => exact .inr (engineTurn_released hr)

/-- What one event does to a pending job (R151, R156, R261). -/
theorem EventEffect.pending {i : Input} {s t : State} (he : EventEffect i s t) (hb : s.busy = true) :
    Held s t ∨ t = s.engineStep ∨ (i = .reset true ∧ t = s.assertReset) := by
  cases he with
  | elsewhere => exact .inl (.flags s _ _ _ _ _ _)
  | inReset => exact .inl (.flags s _ _ _ _ _ _)
  | access _ _ _ _ _ _ _ _ _ he => exact .inl (he.held hb)
  | engine => exact (engineTurn_pending s).imp_right .inl
  | reset level hi =>
    cases level with
    | false => exact .inl { Held.refl s with released := fun _ => rfl }
    | true =>
      cases hr : s.resetLine with
      | true => exact .inl (by simpa [State.setResetLine, hr] using Held.refl s)
      | false => exact .inr (.inr ⟨hi, by simp [State.setResetLine, hr]⟩)

theorem tail_inputs_of_nil {s : State} (h : s.inputs = []) : { s with inputs := s.inputs.tail } = s := by
  rw [h, List.tail_nil, ← h]

/-- What one step does to a pending job (R151, R156, R261). -/
theorem step_pending {s t : State} (hb : s.busy = true) (h : step s = .next t) :
    Held s t ∨ t = State.engineStep { s with inputs := s.inputs.tail } ∨
      (s.inputs.head? = some (.reset true) ∧ t = State.assertReset { s with inputs := s.inputs.tail }) := by
  obtain ⟨hnil, rfl⟩ | ⟨i, rest, hcons, he⟩ := step_effect h
  · rw [tail_inputs_of_nil hnil]
    exact (engineTurn_pending s).imp_right .inl
  · rw [hcons]
    obtain hheld | hdone | ⟨rfl, hreset⟩ := he.pending hb
    · exact .inl ((Held.flags s _ _ _ rest _ _).trans hheld)
    · exact .inr (.inl hdone)
    · exact .inr (.inr ⟨rfl, hreset⟩)

/-- Settles O49, by what a step does to a pending job. -/
theorem pendingJobIsHeldCompletedOrReset : Obligations.PendingJobIsHeldCompletedOrReset := by
  intro s t j hj hstep
  obtain h | h | ⟨hreset, rfl⟩ := step_pending (busy_of_some hj) hstep
  · exact .inl ⟨h.job.trans hj, h.key, h.keyLen, h.inbuf, h.inLen, h.mode, h.outbuf, h.outLen, h.err, h.epoch⟩
  · exact .inr (.inl ⟨h, h ▸ engineStep_done (s := { s with inputs := s.inputs.tail }) hj⟩)
  · exact .inr (.inr ⟨hreset, rfl, rfl, rfl⟩)

/-- A run begins with its first step. -/
theorem run_succ {s t : State} (h : step s = .next t) (n : Nat) : core.run (n + 1) s = core.run n t := by
  simp [Host.Core.run, core, h]

/-- A pending job is held up to some step within the schedule or the next after it, which is the engine's (R157): by
induction on the schedule, each event but the reset input's holding the job or being the engine's turn. -/
theorem exists_engineStep_of_pending (s : State) (hb : s.busy = true) (hr : s.resetLine = false)
    (hreset : ∀ level, Input.reset level ∉ s.inputs) :
    ∃ n t, n ≤ s.inputs.length ∧ core.run n s = .next t ∧ Held s t ∧
      step t = .next (State.engineStep { t with inputs := t.inputs.tail }) := by
  induction hin : s.inputs generalizing s with
  | nil =>
    refine ⟨0, s, Nat.le_refl _, rfl, .refl s, ?_⟩
    rw [step_nil hin, engineTurn_released hr, tail_inputs_of_nil hin]
  | cons i rest ih =>
    obtain ⟨s', hstep⟩ := step_next s
    obtain h | rfl | ⟨hhead, -⟩ := step_pending hb hstep
    · have hin' : s'.inputs = rest := by rw [(noStepChangesTheConfiguration s s' hstep).2, hin, List.tail_cons]
      obtain ⟨n, t, hn, hrun, ht, hengine⟩ := ih s' (by simpa [State.busy, h.job] using hb) (h.released hr)
        (fun level hmem => hreset level (hin ▸ List.mem_cons_of_mem i (hin' ▸ hmem))) hin'
      exact ⟨n + 1, t, Nat.succ_le_succ hn, (run_succ hstep n).trans hrun, h.trans ht, hengine⟩
    · exact ⟨0, s, Nat.zero_le _, rfl, .refl s, hstep⟩
    · exact absurd (List.mem_of_head? hhead) (hreset true)

/-- Settles O50: the engine's step, once reached, finds the job held and completes it. -/
theorem pendingJobCompletes : Obligations.PendingJobCompletes := by
  intro s j hj hr hreset
  obtain ⟨n, t, hn, hrun, h, hstep⟩ := exists_engineStep_of_pending s (busy_of_some hj) hr hreset
  have htj : t.job = some j := h.job.trans hj
  exact ⟨n, t, _, hn, hrun, hstep, htj, h.key, h.keyLen, h.inbuf, h.inLen, rfl,
    engineStep_done (s := { t with inputs := t.inputs.tail }) htj⟩

end Sys2Proof.Machine

/-! ## Encrypt: the bodies on their operands, the request for an IV, and the results from START to completion -/

namespace Sys2Proof.Machine

/-! ### The encrypt body, case by case -/

/-- A legal ECB encrypt body succeeds, whatever the entropy source answers (R160, R162). -/
theorem encryptJob_ecb {inCap keyLen inLen : Nat} (hk : LegalKeyLen keyLen) (hl : inLen ≤ inCap) (keyb inb : Nat → Byte)
    (d : Draw) :
    encryptJob inCap 1 keyLen keyb inb inLen d = .ok (ecbEnc (slice keyb 0 keyLen) (pad (slice inb 0 inLen))) := by
  simp [encryptJob, hk, Nat.not_lt.2 hl]

/-- A legal CBC encrypt body that is given an IV succeeds (R160, R161). -/
theorem encryptJob_cbc {inCap keyLen inLen : Nat} (hk : LegalKeyLen keyLen) (hl : inLen ≤ inCap) (keyb inb : Nat → Byte)
    (v : Vector Byte 16) :
    encryptJob inCap 0 keyLen keyb inb inLen (.iv v) =
      .ok (v.toList ++ cbcEnc (slice keyb 0 keyLen) v.toList (pad (slice inb 0 inLen))) := by
  simp [encryptJob, hk, Nat.not_lt.2 hl]

/-- A legal CBC encrypt body that is given no IV ends with CipherError (R161, R224). -/
theorem encryptJob_cbc_fail {inCap keyLen inLen : Nat} (hk : LegalKeyLen keyLen) (hl : inLen ≤ inCap)
    (keyb inb : Nat → Byte) : encryptJob inCap 0 keyLen keyb inb inLen .fail = .err .cipher := by
  simp [encryptJob, hk, Nat.not_lt.2 hl]

/-- The ECB encrypt body does not read the answer of the entropy source (R162). -/
theorem encryptJob_ecb_draw (inCap keyLen inLen : Nat) (keyb inb : Nat → Byte) (d d' : Draw) :
    encryptJob inCap 1 keyLen keyb inb inLen d = encryptJob inCap 1 keyLen keyb inb inLen d' := by
  simp [encryptJob]

/-- In a reserved mode both bodies end with CipherError before they look at an operand (R163, R183). -/
theorem jobResult_reserved (s : State) {c : Cmd} {m : BitVec 2} (hc : c ≠ .zeroize) (hm : ¬(m = 0 ∨ m = 1)) :
    s.jobResult ⟨c, m⟩ = .err .cipher := by
  cases c with
  | encrypt => exact if_pos hm
  | decrypt => exact if_pos hm
  | zeroize => exact absurd rfl hc

/-- The length of the output of a successful encrypt job, by its mode (R164). -/
theorem encrypt_output_length {s : State} {m : BitVec 2} {out : Bytes} (h : s.jobResult ⟨.encrypt, m⟩ = .ok out) :
    (m = 1 ∧ out.length = 16 * (s.inLen.toNat / 16 + 1)) ∨ (m = 0 ∧ out.length = 16 + 16 * (s.inLen.toNat / 16 + 1)) := by
  rw [State.jobResult, jobFunction] at h
  exact encryptJob_length h

/-- Settles O37: the envelope begins with its IV, and the rest is a function of the IV and the operands. -/
theorem envelopesDifferExactlyAsDraws : Obligations.EnvelopesDifferExactlyAsDraws := by
  intro inCap keyLen inLen keyb inb v v' hk hl
  refine ⟨_, _, encryptJob_cbc hk hl keyb inb v, encryptJob_cbc hk hl keyb inb v', not_congr ⟨fun h => ?_, ?_⟩⟩
  · exact Vector.toList_inj.1 (List.append_inj_left h (by simp))
  · rintro rfl
    rfl

/-! ### The request for an IV -/

/-- Only an ENC.CBC job that passes checks 1 to 3 requests an IV (R160, R246). -/
theorem requestsIv_iff (s : State) (j : Job) :
    s.requestsIv j = true ↔ j = ⟨.encrypt, 0⟩ ∧ LegalKeyLen s.keyLen.toNat ∧ s.inLen.toNat ≤ s.config.inCap := by
  obtain ⟨c, m⟩ := j
  simp [State.requestsIv, and_assoc]

/-- A job with a mode other than CBC requests no IV (R162, R163, R183). -/
theorem takeIv_of_mode_ne (s : State) (c : Cmd) {m : BitVec 2} (hm : m ≠ 0) : s.takeIv ⟨c, m⟩ = s :=
  if_neg fun h => hm (congrArg Job.mode ((requestsIv_iff s _).1 h).1)

/-- The engine's step leaves of the entropy source what the job's request leaves (R154, R201, R246). -/
theorem engineStep_source {s : State} {j : Job} (h : s.job = some j) :
    s.engineStep.entropy = (s.takeIv j).entropy ∧ s.engineStep.freeCount = (s.takeIv j).freeCount := by
  rw [engineStep_pending h]
  obtain ⟨-, -, -, -, -, -, -, -, -, -, hent, -, -, hfree⟩ :=
    complete_frame (s.jobResult j) ((s.takeIv j).jobClears j)
  rw [hent, hfree]
  obtain hclear | hclear := jobClears_cases (s.takeIv j) j <;> simp [hclear]

/-- The entropy source fails only where it may (R246). -/
theorem rngMayFail_of_nextDraw {s : State} (h : s.nextDraw = .fail) : s.config.rngMayFail = true := by
  unfold State.nextDraw at h
  split at h
  · next =>
    unfold freeDraw at h
    split at h
    · next hfail => exact (Bool.and_eq_true_iff.1 hfail).1
    · exact absurd h (by simp)
  · exact absurd h (by simp)
  · next =>
    split at h
    · assumption
    · exact absurd h (by simp)

/-- Settles O34: the engine takes an answer exactly when the job requests an IV. -/
theorem ivIsRequestedOnlyByEncCbc : Obligations.IvIsRequestedOnlyByEncCbc := by
  refine ⟨fun s j hj => ?_, fun s => rngMayFail_of_nextDraw, fun s v rest h => by simp [State.nextDraw, h]⟩
  obtain ⟨hent, hfree⟩ := engineStep_source hj
  rw [hent, hfree, ← requestsIv_iff, State.takeIv]
  refine ⟨fun hreq => ?_, fun hreq => ?_⟩
  · rw [if_pos hreq]
    exact ⟨rfl, rfl⟩
  · rw [if_neg hreq]
    exact ⟨rfl, rfl⟩

/-! ### From START to completion -/

/-- A command while idle leaves the PCE busy (R150). -/
theorem command_idle_busy {s : State} (hidle : s.job = none) (c : Cmd) (m : BitVec 2) (q : Bool) :
    (s.command c m q).busy = true := by
  rw [command_idle hidle]
  rfl

/-- START leaves every operand a request depends on, and the entropy source (R150). -/
theorem takeIv_start (s : State) (c : Cmd) (m : BitVec 2) (q : Bool) (r : Response) (j : Job) :
    ((s.start c m q).respond r).takeIv j = ((s.takeIv j).start c m q).respond r := by
  have hreq : ((s.start c m q).respond r).requestsIv j = s.requestsIv j := rfl
  rw [State.takeIv, State.takeIv, hreq]
  split <;> rfl

/-- The engine's step right after an accepted command completes its job with the outcome on the operands as they stood
before the command (R150, R154). -/
theorem engineStep_command {s : State} (hidle : s.job = none) {c : Cmd} (hc : c ≠ .zeroize) (m : BitVec 2) (q : Bool) :
    (s.command c m q).engineStep =
      (((s.takeIv ⟨c, m⟩).start c m q).respond .okay).complete (s.jobResult ⟨c, m⟩) := by
  rw [command_idle hidle, engineStep_cipher rfl hc, takeIv_start]
  rfl

/-- Settles O25: the job asks for no IV and succeeds. -/
theorem encEcbResult : Obligations.EncEcbResult := by
  intro s q hidle hp hk hl
  have hout : s.jobResult ⟨.encrypt, 1⟩ = .ok (ecbEnc s.jobKey (pad s.jobData)) := encryptJob_ecb hk hl _ _ _
  have hfit := outLen_toNat hp hout
  refine ⟨s.command .encrypt 1 q, rfl, command_idle_busy hidle _ _ _, ?_⟩
  rw [engineStep_command hidle (by decide), takeIv_of_mode_ne s _ (by decide), hout]
  have hlen : (ecbEnc s.jobKey (pad s.jobData)).length = 16 * (s.inLen.toNat / 16 + 1) := by
    simpa using encrypt_output_length hout
  exact ⟨finishOk_result hfit, hfit.trans hlen, rfl, rfl, rfl, rfl, rfl, rfl, rfl, rfl, rfl, rfl, rfl, rfl⟩

/-- Settles O26: the job asks for an IV, is given it, and succeeds. -/
theorem encCbcResult : Obligations.EncCbcResult := by
  intro s q v hidle hp hk hl hdraw
  have hout : s.jobResult ⟨.encrypt, 0⟩ = .ok (v.toList ++ cbcEnc s.jobKey v.toList (pad s.jobData)) := by
    rw [State.jobResult, hdraw]
    exact encryptJob_cbc hk hl _ _ v
  have hfit := outLen_toNat hp hout
  refine ⟨s.command .encrypt 0 q, rfl, command_idle_busy hidle _ _ _, ?_⟩
  obtain ⟨e, f, hiv⟩ := takeIv_ports s ⟨.encrypt, 0⟩
  rw [engineStep_command hidle (by decide), hiv, hout]
  have hlen : (v.toList ++ cbcEnc s.jobKey v.toList (pad s.jobData)).length = 16 + 16 * (s.inLen.toNat / 16 + 1) := by
    simpa using encrypt_output_length hout
  exact ⟨finishOk_result hfit, hfit.trans hlen, rfl, rfl, rfl, rfl, rfl, rfl, rfl, rfl, rfl, rfl, rfl⟩

/-- Settles O27: the job asks for an IV and is refused it. -/
theorem encCbcEntropyFailure : Obligations.EncCbcEntropyFailure := by
  intro s q hidle hk hl hdraw
  have herr : s.jobResult ⟨.encrypt, 0⟩ = .err .cipher := by
    rw [State.jobResult, hdraw]
    exact encryptJob_cbc_fail hk hl _ _
  refine ⟨s.command .encrypt 0 q, rfl, ?_⟩
  obtain ⟨e, f, hiv⟩ := takeIv_ports s ⟨.encrypt, 0⟩
  rw [engineStep_command hidle (by decide), hiv, herr]
  exact ⟨rfl, rfl, rfl, rfl, rfl, rfl, rfl, rfl, rfl⟩

/-- A job in a reserved mode completes with CipherError, and leaves the operands and the entropy source (R163, R183). -/
theorem engineStep_command_reserved {s : State} (hidle : s.job = none) {c : Cmd} (hc : c ≠ .zeroize) {m : BitVec 2}
    (hm : m = 2 ∨ m = 3) (q : Bool) :
    (s.command c m q).engineStep = { s with
      mode := m, irqEn := q, done := true, err := 4, outLen := 0, job := none, response := some .okay } := by
  have hm0 : m ≠ 0 := by rintro rfl; revert hm; decide
  have hm1 : m ≠ 1 := by rintro rfl; revert hm; decide
  rw [engineStep_command hidle hc, takeIv_of_mode_ne s c hm0, jobResult_reserved s hc (not_or.2 ⟨hm0, hm1⟩)]
  rfl

/-- Settles O28: the two commands start a job in a reserved mode. -/
theorem reservedModesEndWithCipherError : Obligations.ReservedModesEndWithCipherError := by
  intro s m q hidle hm i hi
  obtain rfl | rfl : i = .encRsv m q ∨ i = .decRsv m q := by simpa using hi
  · exact ⟨_, rfl, engineStep_command_reserved hidle (c := .encrypt) (by decide) hm q⟩
  · exact ⟨_, rfl, engineStep_command_reserved hidle (c := .decrypt) (by decide) hm q⟩

/-! ### OUT_LEN and the result after a completion -/

/-- The bytes an outcome puts before the host: none on an error (R154). -/
def JobResult.output : JobResult → Bytes
  | .ok out => out
  | .err _ => []

/-- After the engine's step OUT_LEN counts the output of the job and the OUT window shows it (R32, R154). -/
theorem engineStep_output {s : State} (hp : s.config.Legal) {j : Job} (hj : s.job = some j) (hc : j.cmd ≠ .zeroize) :
    s.engineStep.outLen.toNat = (s.jobResult j).output.length ∧ s.engineStep.result = (s.jobResult j).output := by
  rw [engineStep_cipher hj hc]
  cases hr : s.jobResult j with
  | ok out =>
    have hfit := outLen_toNat hp hr
    exact ⟨hfit, finishOk_result hfit⟩
  | err k => exact ⟨rfl, rfl⟩

/-- OUT_LEN after a successful encrypt job is the length of its output (R154). -/
theorem encrypt_outLen {s : State} (hp : s.config.Legal) {m : BitVec 2} {out : Bytes}
    (hj : s.job = some ⟨.encrypt, m⟩) (hout : s.jobResult ⟨.encrypt, m⟩ = .ok out) :
    s.engineStep.outLen.toNat = out.length := by
  rw [(engineStep_output hp hj (by simp)).1, hout, JobResult.output]

/-- Settles O36: the outcomes are the same, and the host reads OUT_LEN and OUT off the outcome. -/
theorem ecbEncryptionIsDeterministic : Obligations.EcbEncryptionIsDeterministic := by
  intro s s' hj hj' hp hconf hkl hil hkey hin
  have hres : s'.jobResult ⟨.encrypt, 1⟩ = s.jobResult ⟨.encrypt, 1⟩ := by
    unfold State.jobResult
    rw [hconf, hkl, hil]
    exact (encryptJob_congr (slice_congr fun i _ => hkey i) (slice_congr fun i _ => hin i)).trans
      (encryptJob_ecb_draw _ _ _ _ _ _ _)
  obtain ⟨hlen, hresult⟩ := engineStep_output hp hj (by simp)
  obtain ⟨hlen', hresult'⟩ := engineStep_output (hconf ▸ hp) hj' (by simp)
  rw [hres] at hlen' hresult'
  exact ⟨BitVec.eq_of_toNat_eq (hlen'.trans hlen.symm), hresult'.trans hresult.symm⟩

/-- Settles O38, by the mode of the job that succeeded. -/
theorem encryptLengthLaw : Obligations.EncryptLengthLaw := by
  intro s m out hp hj hout
  rw [encrypt_outLen hp hj hout]
  have hfits := jobResult_fits hp hout
  obtain ⟨rfl, hlen⟩ | ⟨rfl, hlen⟩ := encrypt_output_length hout
  · exact ⟨fun _ => hlen, fun h => absurd h (by decide), by omega, hfits⟩
  · exact ⟨fun h => absurd h (by decide), fun _ => hlen, by omega, hfits⟩

/-- Settles O39, from the two length formulas. -/
theorem cbcIsSixteenLongerThanEcb : Obligations.CbcIsSixteenLongerThanEcb := by
  intro s s' e e' hp hp' hil hj hj' hout hout'
  have hecb := (encryptLengthLaw s 1 e hp hj hout).1 rfl
  have hcbc := (encryptLengthLaw s' 0 e' hp' hj' hout').2.1 rfl
  rw [hcbc, hecb, hil]
  omega

end Sys2Proof.Machine

/-! ## Decrypt: the results from START to completion, the output length, the round trip, tampering -/

namespace Sys2Proof.Machine

/-! ### The decrypt body, case by case -/

/-- A decrypt body that passes its checks is the unpadding of the deciphered text (R180). -/
theorem decryptJob_checked {inCap keyLen inLen : Nat} {m : BitVec 2} {keyb inb : Nat → Byte} (hm : m = 0 ∨ m = 1)
    (hk : LegalKeyLen keyLen) (hl : inLen ≤ inCap) (h16 : m = 0 → 16 ≤ inLen) (h0 : (cipherPart m inb inLen).length ≠ 0)
    (hc : (cipherPart m inb inLen).length % 16 = 0) :
    decryptJob inCap m keyLen keyb inb inLen = unpad (decipher m (slice keyb 0 keyLen) inb inLen) := by
  have hiv : ¬(m = 0 ∧ inLen < Config.block) := fun h => Nat.not_lt.2 (h16 h.1) h.2
  have hpart : ¬((cipherPart m inb inLen).length = 0 ∨ (cipherPart m inb inLen).length % Config.block ≠ 0) :=
    not_or.2 ⟨h0, not_not.2 hc⟩
  rw [decryptJob, if_neg (not_not.2 hm), if_neg (not_not.2 hk), if_neg (Nat.not_lt.2 hl), if_neg hiv, if_neg hpart]

/-- A decrypt body whose input does not fit the buffer ends with LengthError (R180, R225). -/
theorem decryptJob_tooLong {inCap keyLen inLen : Nat} {m : BitVec 2} (hm : m = 0 ∨ m = 1) (hk : LegalKeyLen keyLen)
    (hl : inCap < inLen) (keyb inb : Nat → Byte) : decryptJob inCap m keyLen keyb inb inLen = .err .length := by
  rw [decryptJob, if_neg (not_not.2 hm), if_neg (not_not.2 hk), if_pos hl]

/-! ### From START to completion -/

/-- A decrypt job requests no IV (R180, R246). -/
theorem takeIv_decrypt (s : State) (m : BitVec 2) : s.takeIv ⟨.decrypt, m⟩ = s :=
  if_neg fun h => by simpa using congrArg Job.cmd ((requestsIv_iff s _).1 h).1

/-- The engine's step right after an accepted decrypt command writes the outcome on the operands as they stood, and
leaves the entropy source (R150, R154, R180). -/
theorem engineStep_command_decrypt {s : State} (hidle : s.job = none) (m : BitVec 2) (q : Bool) :
    (s.command .decrypt m q).engineStep =
      ((s.start .decrypt m q).respond .okay).complete (s.jobResult ⟨.decrypt, m⟩) := by
  rw [engineStep_command hidle (by decide), takeIv_decrypt]

/-- An accepted decrypt command whose job succeeds: its result, OUT_LEN, the flags, and the operands as they were
(R154, R180). -/
theorem engineStep_command_decrypt_ok {s : State} (hidle : s.job = none) (hp : s.config.Legal) {m : BitVec 2} {p : Bytes}
    (hout : s.jobResult ⟨.decrypt, m⟩ = .ok p) (q : Bool) :
    let u := (s.command .decrypt m q).engineStep
    u.result = p ∧ u.outLen.toNat = p.length ∧ u.err = 0 ∧ u.done = true ∧ u.job = none ∧ u.mode = m ∧
      u.irqEn = q ∧ u.accErr = s.accErr ∧ u.key = s.key ∧ u.keyLen = s.keyLen ∧ u.inLen = s.inLen ∧
      u.inbuf = s.inbuf ∧ u.entropy = s.entropy ∧ u.config = s.config := by
  have hfit := outLen_toNat hp hout
  rw [engineStep_command_decrypt hidle, hout]
  exact ⟨finishOk_result hfit, hfit, rfl, rfl, rfl, rfl, rfl, rfl, rfl, rfl, rfl, rfl, rfl, rfl⟩

/-- Settles O29: the job passes its checks, and what it unpads is the deciphered input. -/
theorem decEcbResult : Obligations.DecEcbResult := by
  intro s q p hidle hp hk hl h0 h16 hunpad
  have hlen : (cipherPart 1 s.inByte s.inLen.toNat).length = s.inLen.toNat := cipherPart_length 1 _ _
  have hout : s.jobResult ⟨.decrypt, 1⟩ = .ok p :=
    (decryptJob_checked (.inr rfl) hk hl (by simp) (hlen.symm ▸ h0) (hlen.symm ▸ h16)).trans hunpad
  exact ⟨s.command .decrypt 1 q, rfl, command_idle_busy hidle _ _ _, engineStep_command_decrypt_ok hidle hp hout q⟩

/-- Settles O30: the job passes its checks, and what it unpads is the input deciphered under its leading IV. -/
theorem decCbcResult : Obligations.DecCbcResult := by
  intro s q p hidle hp hk hl h32 h16 hunpad
  have hlen : (cipherPart 0 s.inByte s.inLen.toNat).length = s.inLen.toNat - 16 := cipherPart_length 0 _ _
  have hout : s.jobResult ⟨.decrypt, 0⟩ = .ok p :=
    (decryptJob_checked (.inl rfl) hk hl (fun _ => by omega) (by omega) (by omega)).trans hunpad
  exact ⟨s.command .decrypt 0 q, rfl, command_idle_busy hidle _ _ _, engineStep_command_decrypt_ok hidle hp hout q⟩

/-- Settles O31: both commands start a decrypt job, which completes with the error and writes nothing else. -/
theorem decryptErrorsAreReported : Obligations.DecryptErrorsAreReported := by
  intro s q m k hidle hm herr
  have hexec : exec (if m = 0 then .decCbc q else .decEcb q) s = .next (s.command .decrypt m q) := by
    obtain rfl | rfl := hm <;> rfl
  refine ⟨_, hexec, ?_⟩
  rw [engineStep_command_decrypt hidle, herr]
  rfl

/-! ### The output length -/

/-- Settles O40: OUT_LEN is the length of the text, which is 1 to 16 bytes shorter than the ciphertext. -/
theorem decryptLengthLaw : Obligations.DecryptLengthLaw := by
  intro s m p hp hj hout
  have hlen : s.engineStep.outLen.toNat = p.length := by rw [(engineStep_output hp hj (by simp)).1, hout, JobResult.output]
  obtain ⟨hlow, hhigh⟩ := decryptJob_length hout
  rw [hlen]
  exact ⟨hlow, Nat.le_sub_one_of_lt hhigh⟩

/-! ### Slices -/

/-- A slice cut at an index inside it (R12). -/
theorem slice_append (b : Nat → Byte) {i j n : Nat} (hij : i ≤ j) (hjn : j ≤ n) :
    slice b i n = slice b i j ++ slice b j n := by
  refine List.ext_getElem? fun a => ?_
  rw [List.getElem?_append, slice_length]
  split
  · rw [slice_getElem?, slice_getElem?, if_pos (by omega), if_pos (by omega)]
  · rw [slice_getElem?, slice_getElem?, show j + (a - (j - i)) = i + a by omega]
    exact if_congr (by omega) rfl rfl

/-- A buffer that holds the bytes of `e` from index 0 on has `e` as its first slice (R12). -/
theorem slice_eq_of_getElem? {b : Nat → Byte} {e : Bytes} (h : ∀ i, i < e.length → e[i]? = some (b i)) :
    slice b 0 e.length = e := by
  refine List.ext_getElem? fun i => ?_
  rw [slice_getElem?]
  split
  · next hi => rw [Nat.zero_add, h i (by omega)]
  · next hi => rw [List.getElem?_eq_none (by omega)]

/-! ### The round trip -/

/-- An ECB ciphertext of whole blocks in the input buffer deciphers to its text (R134, R180). -/
theorem decipher_ecbEnc {k pp : Bytes} {inb : Nat → Byte} {n : Nat} (hin : slice inb 0 n = ecbEnc k pp)
    (hpp : pp.length % 16 = 0) : decipher 1 k inb n = pp := by
  have h1 : (1 : BitVec 2) ≠ 0 := by decide
  rw [decipher, if_neg h1, cipherPart, if_neg h1, hin, ecbDec_ecbEnc k hpp]

/-- An envelope in the input buffer deciphers to its text, under the IV it begins with (R136, R180). -/
theorem decipher_cbcEnc {k iv pp : Bytes} {inb : Nat → Byte} {n : Nat} (hin : slice inb 0 n = iv ++ cbcEnc k iv pp)
    (hiv : iv.length = 16) (hpp : pp.length % 16 = 0) : decipher 0 k inb n = pp := by
  have hn : 16 ≤ n := by
    have := congrArg List.length hin
    rw [slice_length, List.length_append] at this
    omega
  rw [slice_append inb (Nat.zero_le 16) hn] at hin
  obtain ⟨hhead, htail⟩ := List.append_inj hin (by rw [slice_length, hiv])
  rw [decipher, if_pos rfl, cipherPart, if_pos rfl, Config.block, hhead, htail, cbcDec_cbcEnc k hiv hpp]

/-- The decrypt body on the output of the encrypt body gives the message back, where the output fits (R185). -/
theorem decryptJob_encryptJob {inCap keyLen inLen : Nat} {m : BitVec 2} {keyb inb inb' : Nat → Byte} {d : Draw} {e : Bytes}
    (henc : encryptJob inCap m keyLen keyb inb inLen d = .ok e) (hin : slice inb' 0 e.length = e)
    (hfit : e.length ≤ inCap) : decryptJob inCap m keyLen keyb inb' e.length = .ok (slice inb 0 inLen) := by
  have hpp : (pad (slice inb 0 inLen)).length % 16 = 0 := by rw [pad_length]; omega
  obtain ⟨hk, -, ⟨rfl, he⟩ | ⟨rfl, v, -, he⟩⟩ := encryptJob_ok henc
  · have hlen : e.length = 16 * (inLen / 16 + 1) := by simpa using encryptJob_length henc
    have hpart : (cipherPart 1 inb' e.length).length = e.length := cipherPart_length 1 _ _
    rw [decryptJob_checked (.inr rfl) hk hfit (by simp) (by omega) (by omega), decipher_ecbEnc (hin.trans he) hpp,
      unpad_pad]
  · have hlen : e.length = 16 + 16 * (inLen / 16 + 1) := by simpa using encryptJob_length henc
    have hpart : (cipherPart 0 inb' e.length).length = e.length - 16 := cipherPart_length 0 _ _
    rw [decryptJob_checked (.inl rfl) hk hfit (fun _ => by omega) (by omega) (by omega),
      decipher_cbcEnc (hin.trans he) (by simp) hpp, unpad_pad]

/-- Settles O44: the decrypt body on the encrypt's output, and the two length formulas for the proviso. -/
theorem decryptUndoesEncrypt : Obligations.DecryptUndoesEncrypt := by
  intro s s' m e hp hconf hj hout hj' hkl hkey hil hin
  obtain ⟨hok, herr, -⟩ := completionWritesTheOutcome.2 s' ⟨.decrypt, m⟩ hj' (by simp) (hconf ▸ hp)
  obtain ⟨hk, hl, hmode⟩ := encryptJob_ok hout
  have hm : m = 0 ∨ m = 1 := hmode.symm.imp And.left And.left
  have hjob : s'.jobResult ⟨.decrypt, m⟩ = decryptJob s.config.inCap m s.keyLen.toNat s.keyByte s'.inByte e.length := by
    rw [State.jobResult, hconf, hkl, hil]
    exact decryptJob_congr (slice_congr fun i _ => hkey i) fun _ _ => rfl
  refine ⟨fun hfit => ?_, fun hlong => ?_, ?_⟩
  · obtain ⟨hlen, hzero, hresult, -⟩ :=
      hok _ (hjob.trans (decryptJob_encryptJob hout (slice_eq_of_getElem? hin) hfit))
    exact ⟨hzero, hlen, hresult⟩
  · obtain ⟨hlen, hcode, -⟩ := herr _ (hjob.trans (decryptJob_tooLong hm hk hlong _ _))
    exact ⟨hcode, hlen⟩
  · obtain ⟨hcap16, hcap32, -, -⟩ := hp
    obtain ⟨rfl, hlen⟩ | ⟨rfl, hlen⟩ := encrypt_output_length hout
    · exact ⟨fun h => absurd h (by decide), fun _ => by omega⟩
    · exact ⟨fun _ => by omega, fun h => absurd h (by decide)⟩

/-! ### Tampering before the last two blocks -/

/-- `unpad` looks at no byte before the last block and keeps them all (R131). -/
theorem unpad_append {q t p : Bytes} (ht : t.length = 16) :
    unpad (q ++ t) = .ok p ↔ ∃ r, unpad t = .ok r ∧ p = q ++ r := by
  rw [unpad_eq_ok_iff (by rw [List.length_append]; omega)]
  constructor
  · rintro ⟨n, h1, h16, h⟩
    have hlen := congrArg List.length h
    rw [List.length_append, List.length_append, List.length_replicate] at hlen
    obtain ⟨r, rfl⟩ : q <+: p :=
      List.prefix_of_prefix_length_le (List.prefix_append q t) (h ▸ List.prefix_append p _) (by omega)
    rw [List.append_assoc, List.append_cancel_left_eq] at h
    exact ⟨r, h ▸ unpad_append_replicate r h1 h16, rfl⟩
  · rintro ⟨r, hr, rfl⟩
    obtain ⟨n, h1, h16, rfl⟩ := (unpad_eq_ok_iff (by omega)).1 hr
    exact ⟨n, h1, h16, (List.append_assoc ..).symm⟩

/-- Whole blocks in front of a text are its first blocks (R12). -/
theorem blocks_flatten_append {l : List Bytes} (h : ∀ x ∈ l, x.length = 16) (b : Bytes) :
    blocks (l.flatten ++ b) = l ++ blocks b := by
  induction l with
  | nil => rfl
  | cons x l ih =>
    obtain ⟨hx, hl⟩ := List.forall_mem_cons.1 h
    rw [List.flatten_cons, List.append_assoc, blocks_append hx, ih hl, List.cons_append]

/-- A text of whole blocks in front of another: its blocks come first (R12). -/
theorem blocks_append_blocks {a : Bytes} (ha : a.length % 16 = 0) (b : Bytes) :
    blocks (a ++ b) = blocks a ++ blocks b := by
  rw [← blocks_flatten_append (fun _ hx => blocks_mem_length hx) b, blocks_flatten ha]

theorem blocks_singleton {x : Bytes} (hx : x.length = 16) : blocks x = [x] := by
  simpa using blocks_append hx []

/-- A block after a chain that ends with the cipher block `x` is deciphered with `x` as its predecessor (R137 (e)). -/
theorem cbcDecFrom_concat_concat (k prev x y : Bytes) (l : List Bytes) :
    cbcDecFrom k prev (l ++ [x, y]) = cbcDecFrom k prev (l ++ [x]) ++ xorBytes (aesDec k y) x := by
  induction l generalizing prev with
  | nil => simp [cbcDecFrom]
  | cons z l ih => simp [cbcDecFrom, ih]

/-- The last block of the text of an envelope of `i + 32` bytes: its last cipher block deciphered under the one before
(R136). -/
def lastTextBlock (k : Bytes) (inb : Nat → Byte) (i : Nat) : Bytes :=
  xorBytes (aesDec k (slice inb (i + 16) (i + 32))) (slice inb i (i + 16))

theorem lastTextBlock_length (k : Bytes) (inb : Nat → Byte) (i : Nat) : (lastTextBlock k inb i).length = 16 :=
  xorBytes_length (aesDec_length k (by rw [slice_length]; omega)) (by rw [slice_length]; omega)

/-- The last block of the text reads the last 32 bytes of the envelope alone (R137 (e)). -/
theorem lastTextBlock_congr {k : Bytes} {inb inb' : Nat → Byte} {i : Nat}
    (h : ∀ n, i ≤ n → n < i + 32 → inb' n = inb n) : lastTextBlock k inb' i = lastTextBlock k inb i := by
  rw [lastTextBlock, lastTextBlock, slice_congr (b := inb') (b' := inb) fun n h1 h2 => h n (by omega) h2,
    slice_congr (b := inb') (b' := inb) fun n h1 h2 => h n h1 (by omega)]

/-- An envelope of two cipher blocks or more deciphers to the text of the envelope one block shorter, then its last
block (R136). -/
theorem decipher_eq_append_lastTextBlock (k : Bytes) (inb : Nat → Byte) {i : Nat} (hi : 16 ≤ i) (h16 : i % 16 = 0) :
    decipher 0 k inb (i + 32) = decipher 0 k inb (i + 16) ++ lastTextBlock k inb i := by
  have hx : (slice inb i (i + 16)).length = 16 := by rw [slice_length]; omega
  have hy : (slice inb (i + 16) (i + 32)).length = 16 := by rw [slice_length]; omega
  have hfront : (slice inb 16 i).length % 16 = 0 := by rw [slice_length]; omega
  have htail : slice inb i (i + 32) = slice inb i (i + 16) ++ slice inb (i + 16) (i + 32) :=
    slice_append inb (by omega) (by omega)
  have hshort : blocks (slice inb 16 (i + 16)) = blocks (slice inb 16 i) ++ [slice inb i (i + 16)] := by
    rw [slice_append inb hi (by omega), blocks_append_blocks hfront, blocks_singleton hx]
  have hlong : blocks (slice inb 16 (i + 32)) =
      blocks (slice inb 16 i) ++ [slice inb i (i + 16), slice inb (i + 16) (i + 32)] := by
    rw [slice_append inb hi (by omega), blocks_append_blocks hfront, htail, blocks_append hx, blocks_singleton hy]
  simp only [decipher, cipherPart, cbcDec, if_true, Config.block, hlong, hshort, cbcDecFrom_concat_concat, lastTextBlock]

/-- A CBC decrypt body that passes its checks on two cipher blocks or more succeeds exactly when the last block of the
text unpads (R180, R187). -/
theorem decryptJob_cbc_eq_ok_iff {inCap keyLen i : Nat} {keyb inb : Nat → Byte} {p : Bytes} (hk : LegalKeyLen keyLen)
    (hl : i + 32 ≤ inCap) (hi : 16 ≤ i) (h16 : i % 16 = 0) :
    decryptJob inCap 0 keyLen keyb inb (i + 32) = .ok p ↔
      ∃ r, unpad (lastTextBlock (slice keyb 0 keyLen) inb i) = .ok r ∧
        p = decipher 0 (slice keyb 0 keyLen) inb (i + 16) ++ r := by
  have hpart : (cipherPart 0 inb (i + 32)).length = i + 16 := cipherPart_length 0 _ _
  rw [decryptJob_checked (.inl rfl) hk hl (fun _ => by omega) (by omega) (by omega),
    decipher_eq_append_lastTextBlock _ _ hi h16, unpad_append (lastTextBlock_length _ _ _)]

/-- The text of an envelope of `i + 16` bytes, all but the IV (R137). -/
theorem decipher_cbc_length (k : Bytes) (inb : Nat → Byte) {i : Nat} (h16 : i % 16 = 0) :
    (decipher 0 k inb (i + 16)).length = i := by
  have hpart : (cipherPart 0 inb (i + 16)).length = i := cipherPart_length 0 _ _
  rw [decipher_length (by omega), hpart]

/-- Settles O45: both envelopes have the same last text block, which alone decides the unpadding, and the text before it
has the same length. -/
theorem earlyTamperingIsNotDetected : Obligations.EarlyTamperingIsNotDetected := by
  intro inCap keyLen inLen keyb inb inb' p hok h48 hsame
  obtain ⟨-, hk, hl, -, -, hc, -⟩ := decryptJob_ok hok
  rw [cipherPart_length, if_pos rfl] at hc
  obtain ⟨i, rfl⟩ : ∃ i, inLen = i + 32 := ⟨inLen - 32, by omega⟩
  have hi : 16 ≤ i := by omega
  have h16 : i % 16 = 0 := by omega
  obtain ⟨r, hr, rfl⟩ := (decryptJob_cbc_eq_ok_iff hk hl hi h16).1 hok
  rw [← lastTextBlock_congr (i := i) fun n h => hsame n (by omega)] at hr
  refine ⟨_, (decryptJob_cbc_eq_ok_iff hk hl hi h16).2 ⟨r, hr, rfl⟩, ?_⟩
  rw [List.length_append, List.length_append, decipher_cbc_length _ _ h16, decipher_cbc_length _ _ h16]

end Sys2Proof.Machine

/-! ## Control: NOP, the STATUS write and ZEROIZE -/

namespace Sys2Proof.Machine

/-! ### NOP -/

/-- A word with CMD = 0 is NOP with its MODE and IRQ_EN (R96, R200). -/
theorem decodeWord_nop {w : Word} (h : cmdField w = 0) : decodeWord w = .nop (modeField w) (irqField w) :=
  if_pos h

/-- NOP leaves DONE as it is, busy or not (R200). -/
theorem configure_done (s : State) (m : BitVec 2) (q : Bool) : (s.configure m q).done = s.done := by
  cases hj : s.job with
  | none => rw [configure_idle hj]; rfl
  | some j => rw [configure_busy (busy_of_some hj)]; rfl

/-- NOP drives irq with DONE and the IRQ_EN it stores (R200, R244). -/
theorem configure_irq (s : State) (m : BitVec 2) (q : Bool) : (s.configure m q).irq = (s.done && q) := by
  rw [State.irq, configure_done, configure_irqEn]

/-- Settles O11: NOP is a configuration, which stores both fields while idle and IRQ_EN alone while busy. -/
theorem nopStoresModeAndIrqEn : Obligations.NopStoresModeAndIrqEn := by
  refine ⟨fun w => decodeWord_nop, fun s m q hidle => ?_, fun s m q hbusy => ?_, fun s m hdone => ?_, fun s hidle => ?_⟩
  · exact congrArg _ (configure_idle hidle m q)
  · exact congrArg _ (configure_busy (busy_of_ne_none hbusy) m q)
  · exact ⟨s.configure m true, rfl, by rw [configure_irq, hdone, Bool.and_true]⟩
  · rw [decodeWord_nop (w := 0) rfl]
    exact ⟨_, rfl, congrArg State.mode (configure_idle hidle 0 _)⟩

/-! ### The STATUS write -/

/-- A write-one-to-clear bit: cleared where the bit written is 1, as it was elsewhere (R202). -/
theorem and_not_eq_ite (b c : Bool) : (b && !c) = if c then false else b := by
  cases c <;> simp

/-- A STATUS write clears DONE and ACC_ERR where their bits are 1, and changes nothing else (R202). -/
theorem acknowledge_eq (s : State) (v : Word) :
    s.acknowledge v = { s with
      done := if v.getLsbD 1 then false else s.done, accErr := if v.getLsbD 2 then false else s.accErr } := by
  rw [State.acknowledge, and_not_eq_ite, and_not_eq_ite]

/-- Clearing DONE drops irq (R202, R244). -/
theorem acknowledge_irq {v : Word} (h : v.getLsbD 1 = true) (s : State) : (s.acknowledge v).irq = false := by
  simp [State.irq, h]

/-- Writing 0 to STATUS is a no-op (R202). -/
theorem acknowledge_zero (s : State) : s.acknowledge 0 = s := by
  rw [acknowledge_eq]
  rfl

/-- Where DONE is 0 already, as it is while busy, the write leaves it (R150, R202). -/
theorem acknowledge_done_of_not_done {s : State} (h : s.done = false) (v : Word) : (s.acknowledge v).done = s.done := by
  rw [State.acknowledge_done, h, Bool.false_and]

/-- Settles O14: the write acknowledges and is answered okay. -/
theorem statusWriteAcknowledges : Obligations.StatusWriteAcknowledges := by
  intro s v
  refine ⟨_, busAccess_write_status v s, ?_, fun hv => acknowledge_irq hv s, rfl, rfl, ?_, fun hc hb => ?_⟩
  · rw [acknowledge_eq]
    rfl
  · rintro rfl
    rw [acknowledge_zero]
    rfl
  · exact acknowledge_done_of_not_done (hc.notDone hb) v

/-! ### ZEROIZE -/

/-- Every input byte is 0 once the operands are cleared (R31, R201). -/
theorem clearOperands_inByte {s : State} {i : Nat} (h : i < s.config.inCap) : s.clearOperands.inByte i = 0 := by
  simp [State.inByte, zeros_read h]

/-- Every output byte is 0 once the operands are cleared (R32, R201). -/
theorem clearOperands_outByte {s : State} {i : Nat} (h : i < s.config.outCap) : s.clearOperands.outByte i = 0 := by
  simp [State.outByte, zeros_read h]

/-- A completion without a byte of result leaves the output buffer as it is (R154). -/
theorem finishOk_nil_outByte (s : State) (i : Nat) : (s.finishOk []).outByte i = s.outByte i := by
  simp [finishOk_outByte]

/-- The engine's step right after an accepted ZEROIZE clears the operands and completes with no result (R150, R201). -/
theorem engineStep_command_zeroize {s : State} (hidle : s.job = none) (m : BitVec 2) (q : Bool) :
    (s.command .zeroize m q).engineStep = (((s.start .zeroize m q).respond .okay).clearOperands).finishOk [] := by
  rw [command_idle hidle]
  exact engineStep_zeroize rfl

/-- Settles O32: the START of a zeroize job, then its engine step, which clears the operands and completes; while busy
the command is refused. -/
theorem zeroizeClearsEverything : Obligations.ZeroizeClearsEverything := by
  intro s m q
  refine ⟨fun hidle => ⟨s.command .zeroize m q, rfl, command_idle hidle _ _ _, ?_⟩, fun hbusy => ?_⟩
  · rw [engineStep_command_zeroize hidle]
    exact ⟨fun i => by simp, rfl, rfl, rfl, rfl, rfl, rfl, fun _ hi => clearOperands_inByte hi,
      fun i hi => (finishOk_nil_outByte _ i).trans (clearOperands_outByte hi),
      rfl, rfl, rfl, rfl, rfl, rfl, rfl, rfl⟩
  · exact congrArg _ (command_busy (busy_of_ne_none hbusy) _ _ _)

end Sys2Proof.Machine

/-! ## Errors and the interrupt: the order of a job's checks, ACC_ERR and irq -/

namespace Sys2Proof.Machine

/-! ### The order of a job's checks -/

/-- After the mode the key length is checked, by both bodies (R221, R227). -/
theorem jobResult_illegalKey {s : State} {c : Cmd} (hc : c ≠ .zeroize) {m : BitVec 2} (hm : m = 0 ∨ m = 1)
    (hk : ¬LegalKeyLen s.keyLen.toNat) : s.jobResult ⟨c, m⟩ = .err .invalidKey := by
  cases c with
  | encrypt => exact (if_neg (not_not.2 hm)).trans (if_pos hk)
  | decrypt => exact (if_neg (not_not.2 hm)).trans (if_pos hk)
  | zeroize => exact absurd rfl hc

/-- After the key length the input length is checked against the buffer, by both bodies (R225, R227). -/
theorem jobResult_tooLong {s : State} {c : Cmd} (hc : c ≠ .zeroize) {m : BitVec 2} (hm : m = 0 ∨ m = 1)
    (hk : LegalKeyLen s.keyLen.toNat) (hl : s.config.inCap < s.inLen.toNat) : s.jobResult ⟨c, m⟩ = .err .length := by
  cases c with
  | encrypt => exact (if_neg (not_not.2 hm)).trans ((if_neg (not_not.2 hk)).trans (if_pos hl))
  | decrypt => exact decryptJob_tooLong hm hk hl _ _
  | zeroize => exact absurd rfl hc

/-- A CBC envelope shorter than its IV is malformed (R222, R227). -/
theorem decryptJob_malformed {inCap keyLen inLen : Nat} (hk : LegalKeyLen keyLen) (hl : inLen ≤ inCap)
    (h16 : inLen < 16) (keyb inb : Nat → Byte) :
    decryptJob inCap 0 keyLen keyb inb inLen = .err .malformedEnvelope := by
  rw [decryptJob, if_neg (by decide), if_neg (not_not.2 hk), if_neg (Nat.not_lt.2 hl), if_pos ⟨rfl, h16⟩]

/-- A ciphertext part that is empty or no whole number of blocks is rejected before any decryption (R223, R227). -/
theorem decryptJob_partialBlock {inCap keyLen inLen : Nat} {m : BitVec 2} (hm : m = 0 ∨ m = 1) (hk : LegalKeyLen keyLen)
    (hl : inLen ≤ inCap) (h16 : m = 0 → 16 ≤ inLen) (keyb : Nat → Byte) {inb : Nat → Byte}
    (hpart : (cipherPart m inb inLen).length = 0 ∨ (cipherPart m inb inLen).length % 16 ≠ 0) :
    decryptJob inCap m keyLen keyb inb inLen = .err .padding := by
  have hiv : ¬(m = 0 ∧ inLen < Config.block) := fun h => Nat.not_lt.2 (h16 h.1) h.2
  rw [decryptJob, if_neg (not_not.2 hm), if_neg (not_not.2 hk), if_neg (Nat.not_lt.2 hl), if_neg hiv]
  exact if_pos hpart

/-- Settles O23, check by check; the ciphertext part and the deciphered text are the statement's `n` and `pp`. -/
theorem checksRunInOrder : Obligations.ChecksRunInOrder := by
  refine fun s m => ⟨rfl, fun hm => ?_, fun hm => ⟨fun hk => ?_, fun hk => ⟨fun hl => ?_, fun hl => ⟨?_, ?_, ?_, ?_, ?_⟩⟩⟩⟩
  · have hreserved : ¬(m = 0 ∨ m = 1) := by obtain rfl | rfl := hm <;> decide
    exact ⟨jobResult_reserved s (by decide) hreserved, jobResult_reserved s (by decide) hreserved⟩
  · exact ⟨jobResult_illegalKey (by decide) hm hk, jobResult_illegalKey (by decide) hm hk⟩
  · exact ⟨jobResult_tooLong (by decide) hm hk hl, jobResult_tooLong (by decide) hm hk hl⟩
  · rintro ⟨rfl, h16⟩
    exact decryptJob_malformed hk hl h16 _ _
  · intro h16 n pp
    have hn : (cipherPart m s.inByte s.inLen.toNat).length = n := cipherPart_length ..
    have hpp : decipher m s.jobKey s.inByte s.inLen.toNat = pp := by obtain rfl | rfl := hm <;> rfl
    rw [← hn, ← hpp]
    exact ⟨fun hpart => decryptJob_partialBlock hm hk hl h16 _ hpart,
      fun ⟨h0, hc⟩ => ⟨decryptJob_checked hm hk hl h16 h0 hc, fun _ => unpad_err⟩⟩
  · rintro ⟨rfl, hdraw⟩
    rw [State.jobResult, hdraw]
    exact encryptJob_cbc_fail hk hl _ _
  · rintro rfl
    exact ⟨_, encryptJob_ecb hk hl _ _ _⟩
  · rintro v ⟨rfl, hdraw⟩
    rw [State.jobResult, hdraw]
    exact ⟨_, encryptJob_cbc hk hl _ _ v⟩

/-! ### The addresses of CTRL and STATUS, and the engine's turn -/

/-- CTRL is reached at one bus address alone (R62, R71). -/
theorem address_of_ctrl {p : Config.Params} {addr : Nat} {off : Offset} (ho : windowOffset p addr = some off)
    (hl : locate p off = .ctrl) : addr = p.pceBase + 4 := by
  rw [windowOffset_some ho, locate_ctrl_only hl]
  rfl

/-- STATUS is reached at one bus address alone (R62, R71). -/
theorem address_of_status {p : Config.Params} {addr : Nat} {off : Offset} (ho : windowOffset p addr = some off)
    (hl : locate p off = .status) : addr = p.pceBase + 8 := by
  rw [windowOffset_some ho, locate_status_only hl]
  rfl

/-- A turn of the engine changes nothing, or is the engine's step on a pending job (R152, R260). -/
theorem engineTurn_cases (s : State) : s.engineTurn = s ∨ (s.job ≠ none ∧ s.engineTurn = s.engineStep) := by
  by_cases hj : s.job = none
  · exact .inl (engineTurn_idle hj)
  · cases hr : s.resetLine with
    | true => exact .inl (engineTurn_inReset hr)
    | false => exact .inr ⟨hj, engineTurn_released hr⟩

/-! ### ACC_ERR -/

@[simp] theorem State.takeIv_accErr (s : State) (j : Job) : (s.takeIv j).accErr = s.accErr := by
  obtain h | h := takeIv_cases s j <;> simp [h]

@[simp] theorem State.jobClears_accErr (s : State) (j : Job) : (s.jobClears j).accErr = s.accErr := by
  obtain h | h := jobClears_cases s j <;> simp [h]

/-- The engine's step leaves ACC_ERR (R242). -/
theorem engineStep_accErr (s : State) : s.engineStep.accErr = s.accErr := by
  cases hj : s.job with
  | none => rw [engineStep_idle hj]
  | some j =>
    obtain ⟨-, -, hframe, -⟩ := complete_frame (s.jobResult j) ((s.takeIv j).jobClears j)
    rw [engineStep_pending hj, hframe, State.jobClears_accErr, State.takeIv_accErr]

/-- A turn of the engine leaves ACC_ERR (R242). -/
theorem engineTurn_accErr (s : State) : s.engineTurn.accErr = s.accErr := by
  obtain h | ⟨-, h⟩ := engineTurn_cases s
  · rw [h]
  · rw [h, engineStep_accErr]

/-- NOP leaves ACC_ERR, busy or not (R200, R242). -/
theorem configure_accErr (s : State) (m : BitVec 2) (q : Bool) : (s.configure m q).accErr = s.accErr := by
  cases h : s.busy <;> simp [State.configure, h]

/-- A STATUS write without bit 2 leaves ACC_ERR (R202). -/
theorem acknowledge_accErr_of_clear {v : Word} (h : v.getLsbD 2 = false) (s : State) :
    (s.acknowledge v).accErr = s.accErr := by
  rw [State.acknowledge_accErr, h, Bool.not_false, Bool.and_true]

/-- A STATUS write with bit 2 clears ACC_ERR (R202). -/
theorem acknowledge_accErr_of_set {v : Word} (h : v.getLsbD 2 = true) (s : State) :
    (s.acknowledge v).accErr = false := by
  rw [State.acknowledge_accErr, h, Bool.not_true, Bool.and_false]

/-- A write of `v` to the location is refused while busy: an operand's, or a command word's with CMD ≠ 0 (R66, R242). -/
def Location.RefusedWhileBusy (v : Word) (l : Location) : Prop :=
  l = .keyLen ∨ l = .inLen ∨ (∃ j, l = .key j) ∨ (∃ j, l = .inWord j) ∨ (l = .ctrl ∧ cmdField v ≠ 0)

theorem Location.Operand.refusedWhileBusy {l : Location} (h : l.Operand) (v : Word) : l.RefusedWhileBusy v := by
  obtain h | h | h | h := h
  · exact .inl h
  · exact .inr (.inl h)
  · exact .inr (.inr (.inl h))
  · exact .inr (.inr (.inr (.inl h)))

/-- What an access does to ACC_ERR: a STATUS write with bit 2 clears it, a write refused while busy sets it, and every
other access leaves it (R202, R242). -/
theorem AccessEffect.accErr {off : Offset} {size : Nat} {write : Bool} {v : Word} {s t : State}
    (he : AccessEffect off size write v s t) :
    t.accErr = s.accErr ∨ (write = true ∧ acceptedShape off size = true ∧
      ((t.accErr = false ∧ locate s.config off = .status ∧ v.getLsbD 2 = true) ∨
        (t.accErr = true ∧ s.busy = true ∧ (locate s.config off).RefusedWhileBusy v))) := by
  cases he with
  | command c hw ha hl hc =>
    have hcmd : cmdField v ≠ 0 := fun h => by simp [cmdOfField_eq_none_iff.2 h] at hc
    cases hj : s.job with
    | none => exact .inl (by simp [command_idle hj])
    | some j =>
      have hb := busy_of_some hj
      exact .inr ⟨hw, ha, .inr ⟨by simp [command_busy hb], hb, .inr (.inr (.inr (.inr ⟨hl, hcmd⟩)))⟩⟩
  | configure => exact .inl (configure_accErr ..)
  | acknowledged hw ha hl =>
    cases hv : v.getLsbD 2 with
    | false => exact .inl (acknowledge_accErr_of_clear hv s)
    | true => exact .inr ⟨hw, ha, .inl ⟨acknowledge_accErr_of_set hv s, hl, rfl⟩⟩
  | refused hw ha hl hb => exact .inr ⟨hw, ha, .inr ⟨rfl, hb, hl.refusedWhileBusy v⟩⟩
  | _ => exact .inl rfl

/-- The events that clear ACC_ERR: the assertion of reset, and a STATUS write with bit 2 (R242). -/
def ClearsAccErr (p : Config.Params) (i : Input) : Prop :=
  i = .reset true ∨ ∃ v : Word, v.getLsbD 2 = true ∧ i = .bus (p.pceBase + 8) 4 true v

/-- The events that set ACC_ERR while busy: the accepted accesses that are then refused (R66, R242). -/
def SetsAccErr (p : Config.Params) (i : Input) : Prop :=
  ∃ (addr : Nat) (v : Word) (off : Offset), i = .bus addr 4 true v ∧ windowOffset p addr = some off ∧
    off.toNat % 4 = 0 ∧ (locate p off).RefusedWhileBusy v

/-- What one event does to ACC_ERR (R242). -/
theorem EventEffect.accErr {i : Input} {s t : State} (he : EventEffect i s t) :
    t.accErr = s.accErr ∨ (t.accErr = false ∧ ClearsAccErr s.config i) ∨
      (t.accErr = true ∧ s.job ≠ none ∧ SetsAccErr s.config i) := by
  cases he with
  | elsewhere => exact .inl rfl
  | inReset => exact .inl rfl
  | access addr size write v off _ hi ho _ he =>
    obtain h | ⟨rfl, hshape, h⟩ := he.accErr
    · exact .inl h
    · obtain ⟨rfl, h4⟩ := acceptedShape_iff.1 hshape
      obtain ⟨ht, hl, hv⟩ | ⟨ht, hb, hl⟩ := h
      · exact .inr (.inl ⟨ht, .inr ⟨v, hv, address_of_status ho hl ▸ hi⟩⟩)
      · exact .inr (.inr ⟨ht, Option.isSome_iff_ne_none.1 hb, addr, v, off, hi, ho, h4, hl⟩)
  | engine => exact .inl (engineTurn_accErr s)
  | reset level hi =>
    cases level with
    | false => exact .inl rfl
    | true =>
      cases hr : s.resetLine with
      | true => exact .inl (by simp [State.setResetLine, hr])
      | false => exact .inr (.inl ⟨by simp [State.setResetLine, hr], .inl hi⟩)

/-- Settles O51, by what the event of the step does to ACC_ERR; the engine's turn leaves it. -/
theorem accErrIsSticky : Obligations.AccErrIsSticky := by
  intro s t hstep
  obtain ⟨-, rfl⟩ | ⟨i, rest, hcons, he⟩ := step_effect hstep
  · rw [engineTurn_accErr]
    simp +contextual
  · simp only [hcons, List.head?_cons, Option.some.injEq]
    obtain h | ⟨h, hclears⟩ | ⟨h, hbusy, hsets⟩ := he.accErr <;> rw [h]
    · simp +contextual
    · exact ⟨fun _ _ => hclears, fun _ h' => Bool.noConfusion h'⟩
    · exact ⟨fun _ h' => Bool.noConfusion h', fun _ _ => ⟨hbusy, hsets⟩⟩

/-! ### The interrupt -/

/-- A STATUS write without bit 1 leaves irq (R202, R245). -/
theorem acknowledge_irq_of_clear {v : Word} (h : v.getLsbD 1 = false) (s : State) : (s.acknowledge v).irq = s.irq := by
  rw [State.irq, State.irq, State.acknowledge_done, h, Bool.not_false, Bool.and_true, State.acknowledge_irqEn]

/-- An access that changes irq is a CTRL write, or a STATUS write with bit 1 (R245). -/
theorem AccessEffect.of_irq_ne {off : Offset} {size : Nat} {write : Bool} {v : Word} {s t : State}
    (he : AccessEffect off size write v s t) (hne : t.irq ≠ s.irq) :
    write = true ∧ acceptedShape off size = true ∧
      (locate s.config off = .ctrl ∨ (v.getLsbD 1 = true ∧ locate s.config off = .status)) := by
  cases he with
  | command _ hw ha hl => exact ⟨hw, ha, .inl hl⟩
  | configure hw ha hl => exact ⟨hw, ha, .inl hl⟩
  | acknowledged hw ha hl =>
    cases hv : v.getLsbD 1 with
    | false => exact absurd (acknowledge_irq_of_clear hv s) hne
    | true => exact ⟨hw, ha, .inr ⟨rfl, hl⟩⟩
  | _ => exact absurd rfl hne

/-- An event that changes irq is a CTRL write, a STATUS write with bit 1, the completion of a job or the assertion of
reset (R245). -/
theorem EventEffect.of_irq_ne {i : Input} {s t : State} (he : EventEffect i s t) (hne : t.irq ≠ s.irq) :
    (∃ v, i = .bus (s.config.pceBase + 4) 4 true v) ∨
    (∃ v : Word, v.getLsbD 1 = true ∧ i = .bus (s.config.pceBase + 8) 4 true v) ∨
    (s.job ≠ none ∧ t = s.engineStep) ∨ i = .reset true := by
  cases he with
  | elsewhere => exact absurd rfl hne
  | inReset => exact absurd rfl hne
  | access addr size write v off _ hi ho _ he =>
    obtain ⟨rfl, hshape, hl⟩ := he.of_irq_ne hne
    obtain ⟨rfl, -⟩ := acceptedShape_iff.1 hshape
    obtain hl | ⟨hv, hl⟩ := hl
    · exact .inl ⟨v, address_of_ctrl ho hl ▸ hi⟩
    · exact .inr (.inl ⟨v, hv, address_of_status ho hl ▸ hi⟩)
  | engine =>
    obtain h | h := engineTurn_cases s
    · exact absurd (congrArg State.irq h) hne
    · exact .inr (.inr (.inl h))
  | reset level hi =>
    cases level with
    | false => exact absurd rfl hne
    | true => exact .inr (.inr (.inr hi))

/-- Settles O52: irq is the conjunction by definition, and the step is its event or, with none left, the engine's turn. -/
theorem irqChangesOnlyAtItsControls : Obligations.IrqChangesOnlyAtItsControls := by
  refine ⟨fun s => rfl, fun s t hstep hne => ?_⟩
  obtain ⟨hnil, rfl⟩ | ⟨i, rest, hcons, he⟩ := step_effect hstep
  · rw [tail_inputs_of_nil hnil]
    obtain h | h := engineTurn_cases s
    · exact absurd (congrArg State.irq h) hne
    · exact .inr (.inr (.inl h))
  · simp only [hcons, List.head?_cons, Option.some.injEq, List.tail_cons]
    exact he.of_irq_ne hne

end Sys2Proof.Machine

/-! ## Reset and hazards: what events do while reset is asserted, and the clean entry -/

namespace Sys2Proof.Machine

/-- A level on the asserted reset input moves the line alone: asserting it again resets nothing (R260). -/
theorem setResetLine_inReset {s : State} (hr : s.resetLine = true) (level : Bool) :
    s.setResetLine level = { s with resetLine := level } := by
  cases level with
  | false => rfl
  | true => simp [State.setResetLine, ← hr]

/-- While reset is asserted an event moves only the reset line, the bus's answer and the index of free values (R260). -/
theorem EventEffect.portsOnly_of_inReset {i : Input} {s t : State} (he : EventEffect i s t)
    (hr : s.resetLine = true) :
    ∃ level r f, t = { s with resetLine := level, response := r, freeCount := f } := by
  cases he with
  | elsewhere => exact ⟨_, _, _, rfl⟩
  | inReset => exact ⟨_, _, _, rfl⟩
  | access _ _ _ _ _ _ _ _ hreleased => exact absurd hr (by simp [hreleased])
  | engine => exact ⟨_, _, _, engineTurn_inReset hr⟩
  | reset level => exact ⟨_, _, _, setResetLine_inReset hr level⟩

/-- While reset is asserted a step moves only the reset line and the ports (R260). -/
theorem step_portsOnly_of_inReset {s t : State} (hr : s.resetLine = true) (h : step s = .next t) :
    ∃ level is r f, t = { s with resetLine := level, inputs := is, response := r, freeCount := f } := by
  obtain ⟨-, rfl⟩ | ⟨i, rest, -, he⟩ := step_effect h
  · exact ⟨_, _, _, _, engineTurn_inReset hr⟩
  · obtain ⟨level, r, f, rfl⟩ := he.portsOnly_of_inReset hr
    exact ⟨_, _, _, _, rfl⟩

/-- While reset is asserted irq is low, since DONE is 0 (R244, R260). -/
theorem HeldInReset.irq {s : State} (h : HeldInReset s) : s.irq = false := by
  rw [State.irq, h.done, Bool.false_and]

/-- Settles O55: the step moves only the reset line and the ports, and the invariant holds DONE at 0. -/
theorem nothingChangesWhileResetIsAsserted : Obligations.NothingChangesWhileResetIsAsserted := by
  intro s t hinv hr hstep
  have hirq : s.irq = false := (hinv.inReset hr).irq
  obtain ⟨level, is, r, f, rfl⟩ := step_portsOnly_of_inReset hr hstep
  exact ⟨rfl, rfl, rfl, rfl, rfl, rfl, rfl, rfl, rfl, rfl, rfl, rfl, rfl, rfl, hirq⟩

/-- Settles O54: the fields of the reset state, whose input buffer lists no byte (R36, R262). -/
theorem resetIsTheCleanEntry : Obligations.ResetIsTheCleanEntry :=
  ⟨rfl, rfl, rfl, rfl, rfl, rfl, rfl, rfl, rfl, rfl, rfl, fun _ => rfl⟩

end Sys2Proof.Machine
